-- ==== Sys2Proof/Word.lean ====
section
/-! DEFINITION. The word types of the block (00_scope.md rules R5, R7). A V512 is a string of exactly 64 bytes read as
one 512-bit number, byte 0 most significant; it is held as that number, and its bytes and lanes are views of it
(20_memory.md rules R29, R30, R33). -/

namespace Sys2Proof

/-- One byte of an operand, a result or a table. -/
abbrev Byte := BitVec 8

/-- A 32-bit cipher word (20_memory.md rule R31). -/
abbrev W32 := BitVec 32

/-- A 64-bit lane, a counter, or a cipher block seen as one big-endian number (rules R30, R32, R33). -/
abbrev W64 := BitVec 64

/-- A 512-bit value; byte 0 is its most significant byte (00_scope.md rule R7). -/
abbrev V512 := BitVec 512

/-- 64 bytes of 0x00 (00_scope.md rule R7). -/
abbrev zero512 : V512 := 0#512

/-- A byte string: an operand or a result, the byte of index 0 first (00_scope.md rule R7). -/
abbrev Bytes := List Byte

end Sys2Proof
end

