-- ==== Sys2Proof/Config.lean ====
section
/-! DEFINITION. The fixed parameters of the block (00_scope.md rule R5). The two open parameters of that rule, NINST and
MAXLEN, are fields of State (assumption log 1 and 2), so that every statement holds for every value of them. The spec leaves
no result undefined (93_implementation_defined.md section 1), so there is no free value here. -/

namespace Sys2Proof.Config

/-- HASH_BLOCK_BYTES: the bytes of one hash block, and of the window (rule R5). -/
abbrev hashBlockBytes : Nat := 64

/-- KEY_BYTES: the bytes of a cipher key (rule R5). -/
abbrev keyBytes : Nat := 32

/-- SUBKEYS: the words of a round key schedule (rule R5). -/
abbrev subkeyCount : Nat := 32

/-- HEX_KEY_DIGITS: the hex digits of a key text (rule R5). -/
abbrev hexKeyDigits : Nat := 64

/-- HEX_COUNTER_DIGITS: the most hex digits of a counter text (rule R5). -/
abbrev hexCounterDigits : Nat := 16

end Sys2Proof.Config
end

