-- ==== Sys2Proof/Machine/Bytes.lean ====
section
/-! DEFINITION. Byte order: numbers as digit strings, most significant digit first, and the views of a V512, a cipher block
and a cipher word built on them (00_scope.md rule R7; 20_memory.md rules R27 to R33). -/

namespace Sys2Proof.Machine

/-- The number that a string of `w`-bit digits writes, most significant digit first (00_scope.md rule R7: `int`, `be32`,
`be64`). -/
def pack {w : Nat} (ds : List (BitVec w)) : Nat :=
  ds.foldl (fun acc d => acc * 2 ^ w + d.toNat) 0

/-- The `n` least significant `w`-bit digits of `x`, most significant first (00_scope.md rule R7: `bytes32`, `bytes64`,
`w64`). -/
def unpack (w : Nat) : Nat → Nat → List (BitVec w)
  | 0, _ => []
  | n + 1, x => BitVec.ofNat w (x / 2 ^ (w * n)) :: unpack w n x

/-- `be32` of a byte string (00_scope.md rule R7). -/
def be32 (s : Bytes) : W32 := BitVec.ofNat 32 (pack s)

/-- `bytes32` of a word (00_scope.md rule R7). -/
def bytes32 (x : W32) : Bytes := unpack 8 4 x.toNat

/-- `be64` of a byte string (00_scope.md rule R7). -/
def be64 (s : Bytes) : W64 := BitVec.ofNat 64 (pack s)

/-- `bytes64` of a 64-bit number (00_scope.md rule R7). -/
def bytes64 (x : W64) : Bytes := unpack 8 8 x.toNat

/-- `V[i]`, for `i` from 0 to 63: byte 0 is the most significant (00_scope.md rule R7). -/
def byteOf (V : V512) (i : Nat) : Byte := V.extractLsb' (8 * (63 - i)) 8

/-- `lane(V, w)`, for `w` from 0 to 7 (20_memory.md rule R30). -/
def laneOf (V : V512) (w : Nat) : W64 := V.extractLsb' (64 * (7 - w)) 64

/-- The 64 bytes of a V512, `V[0]` first (00_scope.md rule R7). -/
def bytes512 (V : V512) : Bytes := unpack 8 64 V.toNat

/-- The eight lanes of a V512, lane 0 first (20_memory.md rule R30). -/
def lanes512 (V : V512) : List W64 := unpack 64 8 V.toNat

/-- The V512 whose bytes are those of a 64-byte string (00_scope.md rule R7); of a shorter one, the V512 of that number. -/
def ofBytes (s : Bytes) : V512 := BitVec.ofNat 512 (pack s)

/-- The V512 whose lanes are those of a list of eight (20_memory.md rule R30). -/
def ofLanes (ls : List W64) : V512 := BitVec.ofNat 512 (pack ls)

/-- The block seen from its arrival order: the first byte to arrive is the least significant (20_memory.md rule R27). -/
def arrivedBlock (s : Bytes) : V512 := ofBytes s.reverse

/-- `n1`'s half of a cipher block: `be32` of its bytes 0 to 3 (20_memory.md rule R31). -/
def firstHalf (block : W64) : W32 := block.extractLsb' 32 32

/-- `n2`'s half of a cipher block: `be32` of its bytes 4 to 7 (20_memory.md rule R31). -/
def secondHalf (block : W64) : W32 := block.extractLsb' 0 32

/-- The cipher block `bytes32(n1) || bytes32(n2)` (20_memory.md rule R31). -/
def joinHalves (n1 n2 : W32) : W64 := n1 ++ n2

/-- The big-endian words of a byte string, four bytes each (20_memory.md rule R31; 30_encoding.md rule R51); a last group
of fewer than four bytes makes no word. -/
def toWords : Bytes → List W32
  | a :: b :: c :: d :: rest => be32 [a, b, c, d] :: toWords rest
  | _ => []

/-- The bytes of a list of words, each big-endian (30_encoding.md rules R48, R51). -/
def ofWords (ws : List W32) : Bytes := ws.flatMap bytes32

/-- A register file of `n` words loaded from a list, word `i` from its element `i` (10_state.md rule R16). -/
def wordFile (n : Nat) (ws : List W32) : Vector W32 n :=
  ⟨⟨(List.range n).map (fun i => ws.getD i 0)⟩, by simp⟩

end Sys2Proof.Machine
end

