-- ==== Sys2Proof/Machine/Tables.lean ====
section
/-! DEFINITION. The constant tables (10_state.md rule R21): read-only, valid from the release of reset, written by no
operation (70_reset_and_hazards.md rule R177). The entries are those that the spec prints; the spec marks them as supplied
from general knowledge (93_implementation_defined.md G1 to G5; assumption log 12). A row of a printed table is one literal,
its entries from left to right. -/

namespace Sys2Proof.Machine

/-- The rows of `PI`, entry `+0` of a row first (40_hash_tables.md rule R70). -/
def piRows : List (BitVec 128) :=
  [0xfceedd11cf6e3116fbc4fada23c5044d,
   0xe977f0db932e99ba1736f1bb14cd5fc1,
   0xf918655ae25cef21811c3c428b018e4f,
   0x058402aee36a8fa0060bed987fd4d31f,
   0xeb342c51eac848abf22a68a2fd3acecc,
   0xb5700e56080c7612bf7213479cb75d87,
   0x15a19629107b9ac7f391786f9d9eb2b1,
   0x3275193dff358a7e6d54c680c3bd0d57,
   0xdff524a93ea843c9d779d6f67c22b903,
   0xe00fecde7a94b0bcdce828504e330a4a,
   0xa79760731e0062441ab83882649f2641,
   0xad454692275e552f8ca3a57d69d5953b,
   0x0758b34086ac1df730376be488d9e789,
   0xe11b83494c3ff8fe8d53aa90cad88561,
   0x207167a42d2b095bcb9b25d0bee56c52,
   0x59a674d2e6f4b4c0d166afc2394b63b6]

/-- `PI[x]`: entry `x mod 16` of row `x div 16` (40_hash_tables.md rule R70). -/
def PI (x : Byte) : Byte :=
  (piRows.getD (x.toNat / 16) 0).extractLsb' (8 * (15 - x.toNat % 16)) 8

/-- `TAU[i]`, the transposition of the 8 by 8 byte positions (40_hash_tables.md rule R71). -/
def TAU (i : Nat) : Nat := 8 * (i % 8) + i / 8

/-- `A`, the 64 rows of the GF(2) matrix, row 0 first, bit 63 of each row at the left (40_hash_tables.md rule R72). -/
def A : List W64 :=
  [0x8e20faa72ba0b470, 0x47107ddd9b505a38, 0xad08b0e0c3282d1c, 0xd8045870ef14980e,
   0x6c022c38f90a4c07, 0x3601161cf205268d, 0x1b8e0b0e798c13c8, 0x83478b07b2468764,
   0xa011d380818e8f40, 0x5086e740ce47c920, 0x2843fd2067adea10, 0x14aff010bdd87508,
   0x0ad97808d06cb404, 0x05e23c0468365a02, 0x8c711e02341b2d01, 0x46b60f011a83988e,
   0x90dab52a387ae76f, 0x486dd4151c3dfdb9, 0x24b86a840e90f0d2, 0x125c354207487869,
   0x092e94218d243cba, 0x8a174a9ec8121e5d, 0x4585254f64090fa0, 0xaccc9ca9328a8950,
   0x9d4df05d5f661451, 0xc0a878a0a1330aa6, 0x60543c50de970553, 0x302a1e286fc58ca7,
   0x18150f14b9ec46dd, 0x0c84890ad27623e0, 0x0642ca05693b9f70, 0x0321658cba93c138,
   0x86275df09ce8aaa8, 0x439da0784e745554, 0xafc0503c273aa42a, 0xd960281e9d1d5215,
   0xe230140fc0802984, 0x71180a8960409a42, 0xb60c05ca30204d21, 0x5b068c651810a89e,
   0x456c34887a3805b9, 0xac361a443d1c8cd2, 0x561b0d22900e4669, 0x2b838811480723ba,
   0x9bcf4486248d9f5d, 0xc3e9224312c8c1a0, 0xeffa11af0964ee50, 0xf97d86d98a327728,
   0xe4fa2054a80b329c, 0x727d102a548b194e, 0x39b008152acb8227, 0x9258048415eb419d,
   0x492c024284fbaec0, 0xaa16012142f35760, 0x550b8e9e21f7a530, 0xa48b474f9ef5dc18,
   0x70a6a56e2440598e, 0x3853dc371220a247, 0x1ca76e95091051ad, 0x0edd37c48a08a6d8,
   0x07e095624504536c, 0x8d70c431ac02a736, 0xc83862965601dd1b, 0x641c314b2b8ee083]

/-- `C[0]` to `C[11]`, the round constants, byte 0 of each at the left (40_hash_tables.md rule R73). -/
def C : List V512 :=
  [0xb1085bda1ecadae9ebcb2f81c0657c1f2f6a76432e45d016714eb88d7585c4fc4b7ce09192676901a2422a08a460d31505767436cc744d23dd806559f2a64507,
   0x6fa3b58aa99d2f1a4fe39d460f70b5d7f3feea720a232b9861d55e0f16b501319ab5176b12d699585cb561c2db0aa7ca55dda21bd7cbcd56e679047021b19bb7,
   0xf574dcac2bce2fc70a39fc286a3d843506f15e5f529c1f8bf2ea7514b1297b7bd3e20fe490359eb1c1c93a376062db09c2b6f443867adb31991e96f50aba0ab2,
   0xef1fdfb3e81566d2f948e1a05d71e4dd488e857e335c3c7d9d721cad685e353fa9d72c82ed03d675d8b71333935203be3453eaa193e837f1220cbebc84e3d12e,
   0x4bea6bacad4747999a3f410c6ca923637f151c1f1686104a359e35d7800fffbdbfcd1747253af5a3dfff00b723271a167a56a27ea9ea63f5601758fd7c6cfe57,
   0xae4faeae1d3ad3d96fa4c33b7a3039c02d66c4f95142a46c187f9ab49af08ec6cffaa6b71c9ab7b40af21f66c2bec6b6bf71c57236904f35fa68407a46647d6e,
   0xf4c70e16eeaac5ec51ac86febf240954399ec6c7e6bf87c9d3473e33197a93c90992abc52d822c3706476983284a05043517454ca23c4af38886564d3a14d493,
   0x9b1f5b424d93c9a703e7aa020c6e41414eb7f8719c36de1e89b4443b4ddbc49af4892bcb929b069069d18d2bd1a5c42f36acc2355951a8d9a47f0dd4bf02e71e,
   0x378f5a541631229b944c9ad8ec165fde3a7d3a1b258942243cd955b7e00d0984800a440bdbb2ceb17b2b8a9aa6079c540e38dc92cb1f2a607261445183235adb,
   0xabbedea680056f52382ae548b2e4f3f38941e71cff8a78db1fffe18a1b3361039fe76702af69334b7a1e6c303b7652f43698fad1153bb6c374b4c7fb98459ced,
   0x7bcd9ed0efc889fb3002c6cd635afe94d8fa6bbbebab076120018021148466798a1d71efea48b9caefbacd1d7d476e98dea2594ac06fd85d6bcaa4cd81f32d1b,
   0x378ee767f11631bad21380b00449b17acda43c32bcdf1d77f82012d430219f9b5d80ef9d1891cc86e71da4aa88e12852faf417d5d9b21b9948bc924af11bd720]

/-- `SB[0]` to `SB[7]`, the cipher S-boxes, the entry of nibble value 0 at the left of a row; row `i` serves bits
`4i+3 : 4i` (43_cipher_block.md rule R115). -/
def SB : List (BitVec 64) :=
  [0xc462a5b9e8d703f1,
   0x68239a5c1e47bd0f,
   0xb3582fade174c960,
   0xc821d4f670a53e9b,
   0x7f5a816d093eb42c,
   0x5df692cab78143e0,
   0x8e25691cf4b0da37,
   0x17ed05834fa69cb2]

/-- `row[x]` of one cipher S-box (43_cipher_block.md rule R115). -/
def sboxAt (row : BitVec 64) (x : BitVec 4) : BitVec 4 :=
  row.extractLsb' (4 * (15 - x.toNat)) 4

/-- `HEXCHAR`, the ASCII codes of "0123456789ABCDEF" (45_operand_format.md rule R144). -/
def hexChars : Bytes :=
  [0x30, 0x31, 0x32, 0x33, 0x34, 0x35, 0x36, 0x37, 0x38, 0x39, 0x41, 0x42, 0x43, 0x44, 0x45, 0x46]

end Sys2Proof.Machine
end

