-- ==== Sys2Proof/Machine/Cipher.lean ====
section
/-! DEFINITION. The cipher path's functions: key words and schedule (43_cipher_block.md rules R116, R117), round function and
rounds (rules R118 to R120), the block core (rule R122) and the keystream (44_counter_mode.md rule R132). -/

namespace Sys2Proof.Machine.Cipher

open Sys2Proof.Machine

/-- The key words of a 32-byte key, `KW[0]` from the first four bytes (43_cipher_block.md rule R116). -/
def keyWords (key : Bytes) : List W32 := toWords key

/-- The schedule of eight key words: three times in order, once in reverse order (43_cipher_block.md rule R117). -/
def schedule (kw : List W32) : List W32 := kw ++ kw ++ kw ++ kw.reverse

/-- Nibble substitution of a word: the nibbles from position 7 down to 0, each through its own S-box
(43_cipher_block.md rule R118). -/
def t (x : W32) : W32 :=
  BitVec.ofNat 32 (pack (List.zipWith sboxAt SB.reverse (unpack 4 8 x.toNat)))

/-- The round function (43_cipher_block.md rule R119). -/
def f (k a : W32) : W32 := (t (a + k)).rotateLeft 11

/-- One Feistel round of rounds 0 to 30, on `(n1, n2)` (43_cipher_block.md rule R120). -/
def round (p : W32 × W32) (k : W32) : W32 × W32 := (p.2, p.1 ^^^ f k p.2)

/-- Round 31, without the half-swap (43_cipher_block.md rule R120). -/
def lastRound (p : W32 × W32) (k : W32) : W32 × W32 := (p.1 ^^^ f k p.2, p.2)

/-- The 32 rounds under the subkeys `rk` (43_cipher_block.md rule R122). -/
def rounds (rk : List W32) (p : W32 × W32) : W32 × W32 :=
  lastRound ((rk.take 31).foldl round p) (rk.getD 31 0)

/-- The block core as a function of the block and 32 subkeys (43_cipher_block.md rule R122). -/
def encryptBlock (rk : List W32) (block : W64) : W64 :=
  let p := rounds rk (firstHalf block, secondHalf block)
  joinHalves p.1 p.2

/-- Keystream block `i` under a key and an initial counter (44_counter_mode.md rule R132: `KSB`). -/
def keystreamBlock (key : Bytes) (c : W64) (i : Nat) : W64 :=
  encryptBlock (schedule (keyWords key)) (c + BitVec.ofNat 64 i)

/-- Keystream byte `p` under a key and an initial counter (44_counter_mode.md rule R132: `KSTR`). -/
def keystreamByte (key : Bytes) (c : W64) (p : Nat) : Byte :=
  (bytes64 (keystreamBlock key c (p / 8))).getD (p % 8) 0

end Sys2Proof.Machine.Cipher
end

