-- ==== Sys2Proof/Machine/Operands.lean ====
section
/-! DEFINITION. The operand forms: hexadecimal text (45_operand_format.md rules R141 to R144). The forms of raw operands (key
words, block halves, counters, byte strings) are in Bytes.lean and Cipher.lean. -/

namespace Sys2Proof.Machine

/-- The value of a hex digit, and none for every other byte: the 22 ASCII codes (45_operand_format.md rule R143). -/
def hexVal (c : Byte) : Option (BitVec 4) :=
  if 0x30 ≤ c.toNat ∧ c.toNat ≤ 0x39 then some (BitVec.ofNat 4 (c.toNat - 0x30))
  else if 0x41 ≤ c.toNat ∧ c.toNat ≤ 0x46 then some (BitVec.ofNat 4 (c.toNat - 0x41 + 10))
  else if 0x61 ≤ c.toNat ∧ c.toNat ≤ 0x66 then some (BitVec.ofNat 4 (c.toNat - 0x61 + 10))
  else none

/-- The values of the hex digits of a text in their order, all other bytes removed (45_operand_format.md rule R143:
`val` of each digit of `strip(text)`). -/
def stripHex (text : Bytes) : List (BitVec 4) := text.filterMap hexVal

/-- Two digits a byte, the first the high nibble (45_operand_format.md rule R141). -/
def pairDigits : List (BitVec 4) → Bytes
  | a :: b :: rest => BitVec.ofNat 8 (16 * a.toNat + b.toNat) :: pairDigits rest
  | _ => []

/-- The digits as one number, the first most significant (45_operand_format.md rule R142). -/
def digitsValue (ds : List (BitVec 4)) : W64 := BitVec.ofNat 64 (pack ds)

/-- The two characters of a byte, the high nibble first (45_operand_format.md rule R144). -/
def hexPair (b : Byte) : Bytes :=
  [hexChars.getD (b.toNat / 16) 0, hexChars.getD (b.toNat % 16) 0]

/-- The upper case text of a byte string (45_operand_format.md rule R144). -/
def hexText (s : Bytes) : Bytes := s.flatMap hexPair

end Sys2Proof.Machine
end

