-- ==== Sys2Proof/Machine/Flags.lean ====
section
/-! DEFINITION. The block has no flags, condition codes or status register (10_state.md rule R19, D18). What an operation
computes in their place is its one validation condition, which decides between its result and its error (60_exceptions.md
rules R150 to R154, R159). Each depends on a length only. -/

namespace Sys2Proof.Machine

/-- `InvalidKeyLength` is not raised (60_exceptions.md rule R151). -/
abbrev KeyLengthValid (key : Bytes) : Prop := key.length = Config.keyBytes

/-- `InvalidRoundKeyCount` is not raised (60_exceptions.md rule R152). -/
abbrev SubkeyCountValid (subkeys : List W32) : Prop := subkeys.length = Config.subkeyCount

/-- `InvalidHexKey` is not raised (60_exceptions.md rule R153). -/
abbrev KeyTextValid (text : Bytes) : Prop := (stripHex text).length = Config.hexKeyDigits

/-- `InvalidCounterFormat` is not raised (60_exceptions.md rule R154). -/
abbrev CounterTextValid (text : Bytes) : Prop :=
  0 < (stripHex text).length ∧ (stripHex text).length ≤ Config.hexCounterDigits

end Sys2Proof.Machine
end

