-- ==== Sys2Proof/Syntax.lean ====
section
/-! DEFINITION. The nine operations as terms, one constructor per row of spec/opcode_table.json (30_encoding.md rules R45,
R54), and the names under which a frame is refused (rule R55). An operand of variable length is a byte string or a word
list; an operand of fixed size has a type of that size, so that no other size can be written (rule R53, D11). -/

namespace Sys2Proof

/-- A command with its operand values (30_encoding.md rule R54). -/
inductive Instr where
  /-- `H_INIT`, 0x01, format F0 (rule R101). -/
  | hInit
  /-- `H_UPDATE data`, 0x02, format FB (rule R102). -/
  | hUpdate (data : Bytes)
  /-- `H_FINAL`, 0x03, format F0 (rule R103). -/
  | hFinal
  /-- `K_EXPAND key`, 0x10, format FB (rule R117). -/
  | kExpand (key : Bytes)
  /-- `B_ENC block, subkeys`, 0x11, format FE (rule R122). -/
  | bEnc (block : W64) (subkeys : List W32)
  /-- `CTR_PROC data, key, initialCounter`, 0x20, format FP (rule R130). -/
  | ctrProc (data : Bytes) (key : Bytes) (initialCounter : W64)
  /-- `KEY_HEX text`, 0x30, format FB (rule R141). -/
  | keyHex (text : Bytes)
  /-- `CTR_HEX text`, 0x31, format FB (rule R142). -/
  | ctrHex (text : Bytes)
  /-- `DIG_HEX d`, 0x32, format FD; `d[0]` is the most significant byte of the operand (rule R144). -/
  | digHex (d : V512)
  deriving DecidableEq, Repr

/-- Why a frame decodes to no operation (30_encoding.md rule R55). -/
inductive DecodeError where
  /-- The first byte is none of the nine opcodes. -/
  | reservedOpcode (op : Byte)
  /-- The frame is shorter than its format says. -/
  | tooShort
  /-- The frame is longer than its format says. -/
  | tooLong
  /-- A length field announces more than `MAXLEN` bytes. -/
  | overMaxLen
  deriving DecidableEq, Repr

end Sys2Proof
end

