-- ==== Sys2Proof/Machine/State.lean ====
section
/-! DEFINITION. The state of the machine (10_state.md rules R10 to R17, R22), its responses (30_encoding.md rule R52), the
reasons a step stops, and the state after reset (70_reset_and_hazards.md rule R175). -/

namespace Sys2Proof.Machine

/-- The four errors, the block's only exceptions (60_exceptions.md rule R150). -/
inductive ErrorKind where
  /-- Raised by `K_EXPAND` and `CTR_PROC` (rule R151). -/
  | invalidKeyLength
  /-- Raised by `B_ENC` (rule R152). -/
  | invalidRoundKeyCount
  /-- Raised by `KEY_HEX` (rule R153). -/
  | invalidHexKey
  /-- Raised by `CTR_HEX` (rule R154). -/
  | invalidCounterFormat
  deriving DecidableEq, Repr

/-- A response: OK with a result, or an error with none (30_encoding.md rule R52; 60_exceptions.md rule R157). -/
inductive Response where
  | ok (result : Bytes)
  | err (e : ErrorKind)
  deriving DecidableEq, Repr

/-- A command frame and the number of the engine the host sends it to (30_encoding.md rule R50; assumption log 3). -/
structure Command where
  target : Nat
  frame : Bytes
  deriving DecidableEq, Repr

/-- A response and the number of the engine that returned it (30_encoding.md rule R52; assumption log 3). -/
structure Reply where
  source : Nat
  response : Response
  deriving DecidableEq, Repr

/-- One engine instance: the hash context, the cipher scratch and the hash scratch (10_state.md rule R10). -/
structure Engine where
  /-- The chaining value (rule R11). -/
  h : V512
  /-- The processed-length accumulator, in bits (rule R12). -/
  N : V512
  /-- The running checksum (rule R13). -/
  Sigma : V512
  /-- The pending bytes of the window, the earliest first: `W[63 - i] = pend[i]` (rule R14). -/
  pend : Bytes
  /-- The key words (43_cipher_block.md rules R116, R117; assumption log 9). -/
  KW : Vector W32 8
  /-- The round key schedule (rule R16). -/
  RK : Vector W32 32
  /-- The counter (rule R16). -/
  ctr : W64
  /-- The counter block, `CB[0]` most significant (rule R16). -/
  CB : W64
  /-- The keystream block, `KS[0]` most significant (rule R16). -/
  KS : W64
  /-- The first half of the block (rule R16). -/
  n1 : W32
  /-- The second half of the block (rule R16). -/
  n2 : W32
  /-- The saved copy of `h` (rule R17). -/
  hs : V512
  /-- The running key (rule R17). -/
  Ki : V512
  /-- The cipher state of the keyed transform (rule R17). -/
  st : V512
  /-- The padded final block (rule R17). -/
  m : V512
  deriving DecidableEq, Repr

/-- The whole machine: the engines, the parameter MAXLEN, the commands not yet taken and the responses returned. -/
structure State where
  /-- MAXLEN, `none` when unbounded; no operation writes it (00_scope.md rule R5; assumption log 2). -/
  maxLen : Option Nat
  /-- The engines numbered below the addressed one (00_scope.md rule R5; assumption log 1). -/
  before : List Engine
  /-- The engine that the command now running was sent to. -/
  eng : Engine
  /-- The engines numbered above the addressed one. -/
  after : List Engine
  /-- The host's commands not yet taken, the next one first (00_scope.md rule R6; assumption log 3). -/
  cmds : List Command
  /-- The responses returned so far, the earliest first (00_scope.md rule R6; assumption log 3). -/
  resps : List Reply
  deriving DecidableEq, Repr

/-- The reasons the machine stops with a fault: none. The block has no processor fault, and its four errors are ordinary
responses (60_exceptions.md rules R155, R157; assumption log 23). -/
inductive Fault where
  deriving DecidableEq, Repr

/-- The reasons a step has no meaning. -/
inductive Refusal where
  /-- Raised by an arm of `exec` for an instruction not modelled yet; safe. No arm raises it. -/
  | notModelled (mnemonic : String)
  /-- Raised by `step` for a frame that decodes to no operation: no step, no response (30_encoding.md rule R55); safe. -/
  | undecodable (why : DecodeError)
  /-- Raised by `step` for a command sent to an engine that does not exist (assumption log 6); safe. -/
  | noSuchEngine (target : Nat)
  deriving DecidableEq, Repr

/-- An engine after reset (10_state.md rule R22; 70_reset_and_hazards.md rule R175). -/
def Engine.reset : Engine where
  h := zero512
  N := zero512
  Sigma := zero512
  pend := []
  KW := Vector.replicate 8 0
  RK := Vector.replicate 32 0
  ctr := 0
  CB := 0
  KS := 0
  n1 := 0
  n2 := 0
  hs := zero512
  Ki := zero512
  st := zero512
  m := zero512

/-- The machine after reset with `others + 1` engines and a given MAXLEN: every engine reset, no command, no response
(00_scope.md rule R5; 70_reset_and_hazards.md rule R175). -/
def State.resetWith (maxLen : Option Nat) (others : Nat) : State where
  maxLen := maxLen
  before := []
  eng := Engine.reset
  after := List.replicate others Engine.reset
  cmds := []
  resps := []

/-- The machine after reset: one engine, MAXLEN unbounded (assumption log 1 and 2). -/
def State.reset : State := State.resetWith none 0

end Sys2Proof.Machine
end

