-- ==== Sys2Proof/Machine/Ops.lean ====
section
/-! DEFINITION. The named operations over the state: addressing an engine, ending an operation with a result or with an
error, the zeroing of scratch, and the response frame. -/

namespace Sys2Proof.Machine

/-- `fill`, the number of pending bytes (10_state.md rule R14). -/
def Engine.fill (e : Engine) : Nat := e.pend.length

/-- The full window of 64 pending bytes, `W[63 - i] = pend[i]` (10_state.md rule R14; 20_memory.md rule R27). -/
def Engine.window (e : Engine) : V512 := arrivedBlock e.pend

/-- The hash context at its initial value (10_state.md rule R22; 42_hash_engine.md rule R101). -/
def Engine.clearContext (e : Engine) : Engine :=
  { e with h := zero512, N := zero512, Sigma := zero512, pend := [] }

/-- Zero to the scratch that a compression writes (10_state.md rule R24). -/
def Engine.clearCompression (e : Engine) : Engine :=
  { e with hs := zero512, Ki := zero512, st := zero512 }

/-- Zero to the scratch that holds the padded block (10_state.md rule R24). -/
def Engine.clearPadded (e : Engine) : Engine := { e with m := zero512 }

/-- Zero to the scratch that a key expansion writes (10_state.md rule R24; 43_cipher_block.md rule R117). -/
def Engine.clearSchedule (e : Engine) : Engine :=
  { e with KW := Vector.replicate 8 0, RK := Vector.replicate 32 0 }

/-- Zero to the scratch that the block core writes beside the schedule (10_state.md rule R24; 43_cipher_block.md rule
R122). -/
def Engine.clearHalves (e : Engine) : Engine := { e with n1 := 0, n2 := 0 }

/-- Zero to the counter, the counter block and the keystream block (10_state.md rule R24; 44_counter_mode.md rule R130). -/
def Engine.clearCounter (e : Engine) : Engine := { e with ctr := 0, CB := 0, KS := 0 }

/-- All the engines, number 0 first (00_scope.md rule R5). -/
def State.engines (s : State) : List Engine := s.before ++ s.eng :: s.after

/-- The number of the addressed engine. -/
def State.number (s : State) : Nat := s.before.length

/-- The machine with engine number `k` addressed, if there is one; no engine changes (60_exceptions.md rule R168). -/
def State.address (k : Nat) (s : State) : Option State :=
  match s.engines.drop k with
  | [] => none
  | e :: rest => some { s with before := s.engines.take k, eng := e, after := rest }

/-- A response of the addressed engine is appended to those returned (30_encoding.md rule R52). -/
def State.respond (r : Response) (s : State) : State :=
  { s with resps := s.resps ++ [⟨s.number, r⟩] }

/-- `return`: the operation ends with status OK and a result, the addressed engine being `e` (00_scope.md rule R7). -/
def State.complete (s : State) (e : Engine) (result : Bytes) : Host.Outcome State Fault Refusal :=
  .next (State.respond (.ok result) { s with eng := e })

/-- `raise`: the operation ends with an error and no result, and no state has changed. This is the one operation by which
the block takes an exception; there is no handler, saved register or return (00_scope.md rule R7; 60_exceptions.md rules
R156 to R158). -/
def State.raise (s : State) (e : ErrorKind) : Host.Outcome State Fault Refusal :=
  .next (State.respond (.err e) s)

/-- The status byte of an error (60_exceptions.md rule R150). -/
def ErrorKind.code : ErrorKind → Byte
  | .invalidKeyLength => 0x01
  | .invalidRoundKeyCount => 0x02
  | .invalidHexKey => 0x03
  | .invalidCounterFormat => 0x04

/-- The frame of a response: the status byte, then the result as a BYTES field (30_encoding.md rule R52). -/
def Response.frame : Response → Bytes
  | .ok result => 0x00 :: (unpack 8 8 result.length ++ result)
  | .err e => e.code :: unpack 8 8 0

end Sys2Proof.Machine
end

