-- ==== Sys2Proof/Machine/CipherBlock.lean ====
section
/-! DEFINITION. The key schedule and the block core: `K_EXPAND`, `B_ENC` (43_cipher_block.md rules R117, R122). -/

namespace Sys2Proof.Machine

/-- `KW` from the key, `RK` from `KW` (43_cipher_block.md rules R116, R117). -/
def Engine.expandKey (e : Engine) (key : Bytes) : Engine :=
  let e1 := { e with KW := wordFile 8 (Cipher.keyWords key) }
  { e1 with RK := wordFile 32 (Cipher.schedule e1.KW.toList) }

/-- The block core on the engine: the halves of the block go through the 32 rounds under `RK` (43_cipher_block.md rule
R122). -/
def Engine.encrypt (e : Engine) (block : W64) : Engine :=
  let e1 := { e with n1 := firstHalf block, n2 := secondHalf block }
  let p := Cipher.rounds e1.RK.toList (e1.n1, e1.n2)
  { e1 with n1 := p.1, n2 := p.2 }

/-- The encrypted block that the halves hold (43_cipher_block.md rule R122). -/
def Engine.blockOut (e : Engine) : W64 := joinHalves e.n1 e.n2

/-- `K_EXPAND key` (43_cipher_block.md rule R117). -/
def execKExpand (key : Bytes) (s : State) : Host.Outcome State Fault Refusal :=
  if KeyLengthValid key then
    let e := s.eng.expandKey key
    s.complete e.clearSchedule (ofWords e.RK.toList)
  else s.raise .invalidKeyLength

/-- `B_ENC block, subkeys` (43_cipher_block.md rule R122). -/
def execBEnc (block : W64) (subkeys : List W32) (s : State) : Host.Outcome State Fault Refusal :=
  if SubkeyCountValid subkeys then
    let e1 := { s.eng with RK := wordFile 32 subkeys }
    let e := e1.encrypt block
    s.complete { e.clearHalves with RK := Vector.replicate 32 0 } (bytes64 e.blockOut)
  else s.raise .invalidRoundKeyCount

end Sys2Proof.Machine
end

