-- ==== Sys2Proof/Machine/CounterMode.lean ====
section
/-! DEFINITION. The counter-mode stream: `CTR_PROC` (44_counter_mode.md rule R130). -/

namespace Sys2Proof.Machine

/-- One keystream block: the counter goes to `CB`, its encryption to `KS`, and the counter advances modulo 2^64
(44_counter_mode.md rules R130, R131). -/
def Engine.nextKeystream (e : Engine) : Engine :=
  let e1 := { e with CB := e.ctr }
  let e2 := e1.encrypt e1.CB
  { e2 with KS := e2.blockOut, ctr := e2.ctr + 1 }

/-- `n` groups of up to 8 data bytes, each met by the leading bytes of its keystream block (44_counter_mode.md rule R130). -/
def Engine.stream : Nat → Bytes → Engine → Engine × Bytes
  | 0, _, e => (e, [])
  | n + 1, data, e =>
    let e1 := e.nextKeystream
    let r := Engine.stream n (data.drop 8) e1
    (r.1, List.zipWith (· ^^^ ·) (data.take 8) (bytes64 e1.KS) ++ r.2)

/-- `nblk`, the number of keystream blocks for `L` data bytes: `ceil(L / 8)` (44_counter_mode.md rule R130). -/
def blockCount (L : Nat) : Nat := (L + 7) / 8

/-- `CTR_PROC data, key, initialCounter` (44_counter_mode.md rule R130); the key is checked first, for empty data too
(60_exceptions.md rule R151). -/
def execCtrProc (data key : Bytes) (initialCounter : W64) (s : State) : Host.Outcome State Fault Refusal :=
  if KeyLengthValid key then
    let e1 := { s.eng.expandKey key with ctr := initialCounter }
    let r := Engine.stream (blockCount data.length) data e1
    s.complete r.1.clearSchedule.clearHalves.clearCounter r.2
  else s.raise .invalidKeyLength

end Sys2Proof.Machine
end

