-- ==== Sys2Proof/Machine/Hash.lean ====
section
/-! DEFINITION. The hash path's functions: the primitive transforms (40_hash_tables.md rules R74 to R84), the keyed transform
and the compression function (41_hash_compression.md rules R90, R91), the padded block and the digest of a whole message
(42_hash_engine.md rules R103, R104). None is an operation; HashEngine.lean uses them. -/

namespace Sys2Proof.Machine.Hash

open Sys2Proof.Machine

/-- Exclusive or of two V512 (40_hash_tables.md rule R74). -/
def X (a b : V512) : V512 := a ^^^ b

/-- Byte substitution (40_hash_tables.md rule R75). -/
def S (V : V512) : V512 := ofBytes ((bytes512 V).map PI)

/-- Byte permutation, `r[i] = V[TAU[i]]` (40_hash_tables.md rule R76). -/
def P (V : V512) : V512 := ofBytes ((List.range 64).map (fun i => byteOf V (TAU i)))

/-- The exclusive or of the rows, numbered from `i`, whose bit `63 - i` of `x` is 1 (40_hash_tables.md rule R77). -/
def rowSum (x : W64) : Nat → List W64 → W64
  | _, [] => 0
  | i, row :: rows => (if x.getLsbD (63 - i) then row else 0) ^^^ rowSum x (i + 1) rows

/-- The GF(2) linear map on one lane (40_hash_tables.md rule R77). -/
def l64 (x : W64) : W64 := rowSum x 0 A

/-- The linear transform, lane by lane (40_hash_tables.md rule R78). -/
def L (V : V512) : V512 := ofLanes ((lanes512 V).map l64)

/-- Substitution, then permutation, then the linear transform (40_hash_tables.md rule R79). -/
def LPS (V : V512) : V512 := L (P (S V))

/-- The fused table: `PI[b]` placed as byte `k` of a lane, through the linear map (40_hash_tables.md rule R81). The table is
this function of the constants; it is not stored (10_state.md rule R21, assumption log 14). -/
def T (k : Nat) (b : Byte) : W64 := l64 (BitVec.ofNat 64 ((PI b).toNat * 256 ^ (7 - k)))

/-- Output lane `w` of the fused transform: eight look-ups, one for each input lane (40_hash_tables.md rule R82). -/
def fusedLane (V : V512) (w : Nat) : W64 :=
  (List.range 8).foldl (fun r k => r ^^^ T k (byteOf V (8 * k + w))) 0

/-- The fused form of `LPS` (40_hash_tables.md rule R82). -/
def LPSfused (V : V512) : V512 := ofLanes ((List.range 8).map (fusedLane V))

/-- Addition modulo 2^512 (40_hash_tables.md rule R83). -/
def ADD512 (a b : V512) : V512 := a + b

/-- Addition of a small number modulo 2^512 (40_hash_tables.md rule R84). -/
def ADD512I (a : V512) (n : Nat) : V512 := a + BitVec.ofNat 512 n

/-- Rule R83's loop from byte 63 down to byte 0, on the bytes in that order: the sum bytes, each with the carry of the one
before it; the last carry is dropped (40_hash_tables.md rule R83). -/
def carryAdd : Nat → List (Byte × Byte) → Bytes
  | _, [] => []
  | c, (x, y) :: rest =>
    BitVec.ofNat 8 (x.toNat + y.toNat + c) :: carryAdd ((x.toNat + y.toNat + c) / 256) rest

/-- One round of the keyed transform on the running key and the cipher state (41_hash_compression.md rule R90, rounds 0 to
10). -/
def keyRound (p : V512 × V512) (c : V512) : V512 × V512 :=
  let Ki := LPS (X p.1 c)
  (Ki, LPS (X p.2 Ki))

/-- The running key and the cipher state at the end of the keyed transform (41_hash_compression.md rule R90). -/
def keyedRun (K m : V512) : V512 × V512 :=
  let r := (C.take 11).foldl keyRound (K, LPS (X K m))
  let Ki := LPS (X r.1 (C.getD 11 0))
  (Ki, X r.2 Ki)

/-- The keyed transform (41_hash_compression.md rule R90). -/
def E (K m : V512) : V512 := (keyedRun K m).2

/-- The compression function (41_hash_compression.md rule R91). -/
def G (h n m : V512) : V512 := X (X (E (LPS (X h n)) m) h) m

/-- The padded final block: the pending bytes at the least significant end, then the byte 0x01, then zeros
(42_hash_engine.md rule R103). -/
def paddedBlock (pend : Bytes) : V512 := arrivedBlock (pend ++ [0x01])

/-- Block `b` of a message, in internal order (42_hash_engine.md rule R104: `rev(M_b)`). -/
def messageBlock (M : Bytes) (b : Nat) : V512 := arrivedBlock ((M.drop (64 * b)).take 64)

/-- The chaining value and the checksum after the first `b` blocks of a message (42_hash_engine.md rule R104: `h_b`, `S_b`). -/
def afterBlocks (M : Bytes) : Nat → V512 × V512
  | 0 => (zero512, zero512)
  | b + 1 =>
    let p := afterBlocks M b
    (G p.1 (BitVec.ofNat 512 (512 * b)) (messageBlock M b), ADD512 p.2 (messageBlock M b))

/-- The digest of a whole message (42_hash_engine.md rule R104). -/
def DIGEST (M : Bytes) : Bytes :=
  let B := M.length / 64
  let f := M.length % 64
  let p := afterBlocks M B
  let m := paddedBlock (M.drop (64 * B))
  let h1 := G p.1 (BitVec.ofNat 512 (512 * B)) m
  let h2 := G h1 zero512 (BitVec.ofNat 512 (512 * B + 8 * f))
  let h3 := G h2 zero512 (ADD512 p.2 m)
  (bytes512 h3).reverse

end Sys2Proof.Machine.Hash
end

