-- ==== Sys2Proof/Machine/HashEngine.lean ====
section
/-! DEFINITION. The hash engine: `H_INIT`, `H_UPDATE`, `H_FINAL` (42_hash_engine.md rules R101 to R103). -/

namespace Sys2Proof.Machine

/-- One compression on the engine: `h <- G(h, n, m)` by way of the scratch `hs`, `Ki`, `st`, which is zeroed at its end
(41_hash_compression.md rules R90, R91; 10_state.md rule R24). -/
def Engine.compress (e : Engine) (n m : V512) : Engine :=
  let e1 := { e with hs := e.h, Ki := Hash.LPS (Hash.X e.h n) }
  let r := Hash.keyedRun e1.Ki m
  let e2 := { e1 with Ki := r.1, st := r.2 }
  let e3 := { e2 with h := Hash.X (Hash.X e2.st e2.hs) m }
  e3.clearCompression

/-- The full window is compressed, `N` and `Sigma` advance, the window empties (42_hash_engine.md rule R102). -/
def Engine.absorbBlock (e : Engine) : Engine :=
  let W := e.window
  let e1 := e.compress e.N W
  { e1 with N := Hash.ADD512I e1.N 512, Sigma := Hash.ADD512 e1.Sigma W, pend := [] }

/-- One byte enters the window (42_hash_engine.md rule R102). -/
def Engine.absorbByte (e : Engine) (b : Byte) : Engine :=
  let e1 := { e with pend := e.pend ++ [b] }
  if e1.fill = Config.hashBlockBytes then e1.absorbBlock else e1

/-- The bytes of an operand enter the window in arrival order (42_hash_engine.md rule R102). -/
def Engine.absorb (e : Engine) (data : Bytes) : Engine := data.foldl Engine.absorbByte e

/-- Padding and the three compressions of `H_FINAL`: `h` holds the final chaining value (42_hash_engine.md rule R103, steps
1 to 3). -/
def Engine.finish (e : Engine) : Engine :=
  let e1 := { e with m := Hash.paddedBlock e.pend }
  let e2 := e1.compress e1.N e1.m
  let e3 := { e2 with N := Hash.ADD512I e2.N (8 * e.fill), Sigma := Hash.ADD512 e2.Sigma e2.m }
  let e4 := e3.compress zero512 e3.N
  e4.compress zero512 e4.Sigma

/-- `H_INIT` (42_hash_engine.md rule R101). -/
def execHInit (s : State) : Host.Outcome State Fault Refusal :=
  s.complete s.eng.clearContext []

/-- `H_UPDATE data` (42_hash_engine.md rule R102). -/
def execHUpdate (data : Bytes) (s : State) : Host.Outcome State Fault Refusal :=
  s.complete (s.eng.absorb data) []

/-- `H_FINAL` (42_hash_engine.md rule R103): the digest is the final `h`, byte-reversed (20_memory.md rule R28). -/
def execHFinal (s : State) : Host.Outcome State Fault Refusal :=
  let e := s.eng.finish
  s.complete e.clearContext.clearPadded (bytes512 e.h).reverse

end Sys2Proof.Machine
end

