-- ==== Sys2Proof/Machine/OperandFormat.lean ====
section
/-! DEFINITION. The operand text formats: `KEY_HEX`, `CTR_HEX`, `DIG_HEX` (45_operand_format.md rules R141, R142, R144). They
read and write no engine state (rule R140). -/

namespace Sys2Proof.Machine

/-- `KEY_HEX text` (45_operand_format.md rule R141). -/
def execKeyHex (text : Bytes) (s : State) : Host.Outcome State Fault Refusal :=
  if KeyTextValid text then s.complete s.eng (pairDigits (stripHex text))
  else s.raise .invalidHexKey

/-- `CTR_HEX text` (45_operand_format.md rule R142). -/
def execCtrHex (text : Bytes) (s : State) : Host.Outcome State Fault Refusal :=
  if CounterTextValid text then s.complete s.eng (bytes64 (digitsValue (stripHex text)))
  else s.raise .invalidCounterFormat

/-- `DIG_HEX d` (45_operand_format.md rule R144). -/
def execDigHex (d : V512) (s : State) : Host.Outcome State Fault Refusal :=
  s.complete s.eng (hexText (bytes512 d))

end Sys2Proof.Machine
end

