-- ==== Sys2Proof/Machine/Dispatch.lean ====
section
/-! DEFINITION. The meaning of each operation, one arm per constructor of Instr. -/

namespace Sys2Proof.Machine

def exec (i : Instr) (s : State) : Host.Outcome State Fault Refusal :=
  match i with
  | .hInit => Sys2Proof.Machine.execHInit s
  | .hUpdate data => Sys2Proof.Machine.execHUpdate data s
  | .hFinal => Sys2Proof.Machine.execHFinal s
  | .kExpand key => Sys2Proof.Machine.execKExpand key s
  | .bEnc block subkeys => Sys2Proof.Machine.execBEnc block subkeys s
  | .ctrProc data key initialCounter => Sys2Proof.Machine.execCtrProc data key initialCounter s
  | .keyHex text => Sys2Proof.Machine.execKeyHex text s
  | .ctrHex text => Sys2Proof.Machine.execCtrHex text s
  | .digHex d => Sys2Proof.Machine.execDigHex d s

end Sys2Proof.Machine
end

