-- ==== Sys2Proof/WellFormed.lean ====
section
/-! DEFINITION. Which commands a frame can carry (30_encoding.md rule R51): every length fits its LEN64 field and is at most
MAXLEN. `maxLen` is that parameter, `none` when unbounded (00_scope.md rule R5, D9). -/

namespace Sys2Proof

/-- `n` bytes are at most MAXLEN (30_encoding.md rule R51). -/
abbrev WithinMax (maxLen : Option Nat) (n : Nat) : Prop :=
  ∀ m ∈ maxLen, n ≤ m

/-- A BYTES field can hold a string of `n` bytes (30_encoding.md rule R51). -/
abbrev BytesFit (maxLen : Option Nat) (n : Nat) : Prop :=
  n < 2 ^ 64 ∧ WithinMax maxLen n

/-- A WORDS field can hold a list of `c` words (30_encoding.md rule R51: `4c <= MAXLEN`). -/
abbrev WordsFit (maxLen : Option Nat) (c : Nat) : Prop :=
  c < 2 ^ 64 ∧ WithinMax maxLen (4 * c)

/-- A frame can carry the command (30_encoding.md rules R50, R51, R53). -/
abbrev WellFormed (maxLen : Option Nat) (i : Instr) : Prop :=
  match i with
  | .hInit => True
  | .hUpdate data => BytesFit maxLen data.length
  | .hFinal => True
  | .kExpand key => BytesFit maxLen key.length
  | .bEnc _ subkeys => WordsFit maxLen subkeys.length
  | .ctrProc data key _ => BytesFit maxLen data.length ∧ BytesFit maxLen key.length
  | .keyHex text => BytesFit maxLen text.length
  | .ctrHex text => BytesFit maxLen text.length
  | .digHex _ => True

end Sys2Proof
end

