-- ==== Sys2Proof/Decode.lean ====
section
/-! DEFINITION. The command frame (30_encoding.md rules R50 to R55): a total decoder that refuses by name, and the encoder
written from the same format table. -/

namespace Sys2Proof

open Sys2Proof.Machine

/-- The first `n` bytes of a frame and what follows them, if it has so many (30_encoding.md rule R55). -/
def takeBytes (n : Nat) (f : Bytes) : Except DecodeError (Bytes × Bytes) :=
  if f.length < n then .error .tooShort else .ok (f.take n, f.drop n)

/-- A LEN64 field: 8 bytes, most significant first (30_encoding.md rule R51). -/
def readLen (f : Bytes) : Except DecodeError (Nat × Bytes) :=
  match takeBytes 8 f with
  | .error e => .error e
  | .ok (b, rest) => .ok (pack b, rest)

/-- A 64-bit field: BLOCK8 or CTR64 (30_encoding.md rule R51). -/
def readW64 (f : Bytes) : Except DecodeError (W64 × Bytes) :=
  match takeBytes 8 f with
  | .error e => .error e
  | .ok (b, rest) => .ok (be64 b, rest)

/-- A BYTES field: `LEN64 n`, then `n` bytes, `n <= MAXLEN` (30_encoding.md rule R51). -/
def readBytes (maxLen : Option Nat) (f : Bytes) : Except DecodeError (Bytes × Bytes) :=
  match readLen f with
  | .error e => .error e
  | .ok (n, rest) => if WithinMax maxLen n then takeBytes n rest else .error .overMaxLen

/-- A WORDS field: `LEN64 c`, then `4c` bytes, `4c <= MAXLEN` (30_encoding.md rule R51). -/
def readWords (maxLen : Option Nat) (f : Bytes) : Except DecodeError (List W32 × Bytes) :=
  match readLen f with
  | .error e => .error e
  | .ok (c, rest) =>
    if WithinMax maxLen (4 * c) then
      match takeBytes (4 * c) rest with
      | .error e => .error e
      | .ok (b, rest') => .ok (toWords b, rest')
    else .error .overMaxLen

/-- Format FB after its opcode byte: one BYTES operand (30_encoding.md rule R53). -/
def readFB (maxLen : Option Nat) (mk : Bytes → Instr) (f : Bytes) : Except DecodeError (Instr × Bytes) :=
  match readBytes maxLen f with
  | .error e => .error e
  | .ok (x, rest) => .ok (mk x, rest)

/-- Format FD after its opcode byte: one DIGEST64 operand (30_encoding.md rule R53). -/
def readFD (f : Bytes) : Except DecodeError (Instr × Bytes) :=
  match takeBytes 64 f with
  | .error e => .error e
  | .ok (d, rest) => .ok (.digHex (ofBytes d), rest)

/-- Format FE after its opcode byte: BLOCK8, then WORDS (30_encoding.md rule R53). -/
def readFE (maxLen : Option Nat) (f : Bytes) : Except DecodeError (Instr × Bytes) :=
  match readW64 f with
  | .error e => .error e
  | .ok (block, rest) =>
    match readWords maxLen rest with
    | .error e => .error e
    | .ok (subkeys, rest') => .ok (.bEnc block subkeys, rest')

/-- Format FP after its opcode byte: BYTES data, BYTES key, CTR64 (30_encoding.md rule R53). -/
def readFP (maxLen : Option Nat) (f : Bytes) : Except DecodeError (Instr × Bytes) :=
  match readBytes maxLen f with
  | .error e => .error e
  | .ok (data, rest) =>
    match readBytes maxLen rest with
    | .error e => .error e
    | .ok (key, rest') =>
      match readW64 rest' with
      | .error e => .error e
      | .ok (ctr, rest'') => .ok (.ctrProc data key ctr, rest'')

/-- One command at the front of a byte string, and the bytes after it, by the opcode map (30_encoding.md rules R53, R54). -/
def readCommand (maxLen : Option Nat) : Bytes → Except DecodeError (Instr × Bytes)
  | [] => .error .tooShort
  | op :: f =>
    match op.toNat with
    | 0x01 => .ok (.hInit, f)
    | 0x02 => readFB maxLen .hUpdate f
    | 0x03 => .ok (.hFinal, f)
    | 0x10 => readFB maxLen .kExpand f
    | 0x11 => readFE maxLen f
    | 0x20 => readFP maxLen f
    | 0x30 => readFB maxLen .keyHex f
    | 0x31 => readFB maxLen .ctrHex f
    | 0x32 => readFD f
    | _ => .error (.reservedOpcode op)

/-- The command of a frame: one opcode byte and its operand fields, with nothing after them (30_encoding.md rules R50, R55). -/
def decode (maxLen : Option Nat) (frame : Bytes) : Except DecodeError Instr :=
  match readCommand maxLen frame with
  | .error e => .error e
  | .ok (i, []) => .ok i
  | .ok (_, _ :: _) => .error .tooLong

/-- The opcode byte of each operation (30_encoding.md rule R54). -/
def opcodeOf : Instr → Byte
  | .hInit => 0x01
  | .hUpdate _ => 0x02
  | .hFinal => 0x03
  | .kExpand _ => 0x10
  | .bEnc _ _ => 0x11
  | .ctrProc _ _ _ => 0x20
  | .keyHex _ => 0x30
  | .ctrHex _ => 0x31
  | .digHex _ => 0x32

/-- The LEN64 field of a length (30_encoding.md rule R51). -/
def lenField (n : Nat) : Bytes := unpack 8 8 n

/-- The BYTES field of a byte string (30_encoding.md rule R51). -/
def bytesField (x : Bytes) : Bytes := lenField x.length ++ x

/-- The WORDS field of a word list (30_encoding.md rule R51). -/
def wordsField (ws : List W32) : Bytes := lenField ws.length ++ ofWords ws

/-- The operand fields of a command, by its format (30_encoding.md rule R53). -/
def operandFields : Instr → Bytes
  | .hInit => []
  | .hUpdate data => bytesField data
  | .hFinal => []
  | .kExpand key => bytesField key
  | .bEnc block subkeys => bytes64 block ++ wordsField subkeys
  | .ctrProc data key ctr => bytesField data ++ bytesField key ++ bytes64 ctr
  | .keyHex text => bytesField text
  | .ctrHex text => bytesField text
  | .digHex d => bytes512 d

/-- The frame of a command (30_encoding.md rules R50, R53, R54). -/
def encode (i : Instr) : Bytes := opcodeOf i :: operandFields i

/-- The first `n` bytes of an instruction whose bits are `w`, bit 0 the least significant bit of the first byte. -/
def tableBytes (n w : Nat) : Bytes := (unpack 8 n w).reverse

/-- The frame of an opcode-table row's bits `w`, the row's `nbits` bits first and zeros after them up to the end that the
frame's own fields give it (assumption log 20). 65 zeros complete every frame whose length fields are zero. -/
def tableFrame (nbits w : Nat) : Bytes :=
  let given := tableBytes (nbits / 8) w
  let padded := given ++ List.replicate 65 0
  match readCommand none padded with
  | .error _ => given
  | .ok (_, rest) => padded.take (max given.length (padded.length - rest.length))

/-- The instruction that the decoder reads from an opcode-table row's bits (assumption log 20). -/
def decodeTableWord (nbits w : Nat) : Option Instr :=
  match decode none (tableFrame nbits w) with
  | .ok i => some i
  | .error _ => none

end Sys2Proof
end

