-- ==== Sys2Proof/Machine/Fetch.lean ====
section
/-! DEFINITION. Taking the host's next command: its engine is addressed and its frame decoded (00_scope.md rule R6;
30_encoding.md rules R50, R55). -/

namespace Sys2Proof.Machine

/-- What the block finds when it looks for a command. -/
inductive Fetched where
  /-- The host has no further command (00_scope.md rule R6). -/
  | idle
  /-- The next command cannot be run. -/
  | refusal (r : Refusal)
  /-- The next command, and the machine with its engine addressed and the command taken. -/
  | command (i : Instr) (s : State)

/-- The next command of the host. The engine is addressed first; the frame is decoded before any operand is validated
(60_exceptions.md rule R159), and a frame that does not decode is refused (30_encoding.md rule R55). -/
def fetch (s : State) : Fetched :=
  match s.cmds with
  | [] => .idle
  | c :: rest =>
    match s.address c.target with
    | none => .refusal (.noSuchEngine c.target)
    | some s' =>
      match decode s.maxLen c.frame with
      | .error why => .refusal (.undecodable why)
      | .ok i => .command i { s' with cmds := rest }

end Sys2Proof.Machine
end

