-- ==== Sys2Proof/Machine/Step.lean ====
section
/-! DEFINITION. One step is one whole operation: the host's next command is taken, decoded and executed on the engine it is
sent to (00_scope.md rule R6). -/

namespace Sys2Proof.Machine

/-- One step of the machine; with no command left it holds its state (60_exceptions.md rule R170; assumption log 4). -/
def step (s : State) : Host.Outcome State Fault Refusal :=
  match fetch s with
  | .idle => .next s
  | .refusal r => .refused r
  | .command i s' => exec i s'

/-- `s` with the frame of an opcode-table row as the command that the next step takes, sent to the addressed engine
(assumption log 20). -/
def State.withFetchWord (s : State) (nbits w : Nat) : State :=
  { s with cmds := ⟨s.number, tableFrame nbits w⟩ :: s.cmds }

end Sys2Proof.Machine
end

