-- ==== Sys2Proof/Safety.lean ====
section
/-! DEFINITION. What counts as a safe run, in the terms the statements use: the invariant of an engine between operations
(10_state.md rules R15, R24), the parts of an engine, and sequences of operations on one engine (30_encoding.md rule R57). -/

namespace Sys2Proof

open Sys2Proof.Machine

/-- The hash context of an engine: `h`, `N`, `Sigma` and the pending bytes (10_state.md rule R10). -/
def contextOf (e : Engine) : V512 × V512 × V512 × Bytes := (e.h, e.N, e.Sigma, e.pend)

/-- The initial hash context (10_state.md rule R22). -/
def initialContext : V512 × V512 × V512 × Bytes := (zero512, zero512, zero512, [])

/-- The cipher scratch is zero (10_state.md rules R16, R24). -/
def CipherScratchZero (e : Engine) : Prop :=
  e.KW = Vector.replicate 8 0 ∧ e.RK = Vector.replicate 32 0 ∧ e.ctr = 0 ∧ e.CB = 0 ∧ e.KS = 0 ∧ e.n1 = 0 ∧ e.n2 = 0

/-- The hash scratch is zero (10_state.md rules R17, R24). -/
def HashScratchZero (e : Engine) : Prop :=
  e.hs = zero512 ∧ e.Ki = zero512 ∧ e.st = zero512 ∧ e.m = zero512

/-- What holds of an engine between any two operations: `fill` is at most 63, `N` counts whole blocks, all scratch is zero
(10_state.md rules R12, R15, R24). -/
def EngineInv (e : Engine) : Prop :=
  e.pend.length ≤ 63 ∧ e.N.toNat % 512 = 0 ∧ CipherScratchZero e ∧ HashScratchZero e

/-- Every engine of the machine meets the invariant. -/
def StateInv (s : State) : Prop := ∀ e ∈ s.engines, EngineInv e

/-- A sequence of operations on the addressed engine, stopping at the first that does not answer a next state
(30_encoding.md rule R57). -/
def runInstrs : List Instr → State → Host.Outcome State Fault Refusal
  | [], s => .next s
  | i :: is, s =>
    match exec i s with
    | .next t => runInstrs is t
    | .fault r => .fault r
    | .refused r => .refused r

/-- `n` steps of the machine, stopping at the first that does not answer a next state: a safe run is one that answers. -/
def runSteps : Nat → State → Host.Outcome State Fault Refusal
  | 0, s => .next s
  | n + 1, s =>
    match step s with
    | .next t => runSteps n t
    | .fault r => .fault r
    | .refused r => .refused r

/-- The frames of the commands sent to engine `k`, in order (20_memory.md rule R38). -/
def framesTo (k : Nat) (cmds : List Command) : List Bytes :=
  (cmds.filter (fun c => c.target == k)).map (fun c => c.frame)

/-- The responses of engine `k`, in order (20_memory.md rule R38). -/
def responsesOf (k : Nat) (resps : List Reply) : List Response :=
  (resps.filter (fun r => r.source == k)).map (fun r => r.response)

end Sys2Proof
end

