-- ==== Sys2Proof/Certificates/Slice0/Obligations.lean ====
section
/-! DEFINITION. The statements about the machine, one for each rule or group of rules of spec/ that says what an operation or
the machine does. `Hash.X`, `Hash.LPS` and so on are the functions of Machine/Hash.lean, `Cipher.f` and so on those of
Machine/Cipher.lean. -/

open Sys2Proof Sys2Proof.Machine

/-! ### The hash functions -/

/-- 40_hash_tables.md rule R74. -/
def Obligations.XorIsBytewise : Prop :=
  ∀ a b c : V512,
    (∀ i < 64, byteOf (Hash.X a b) i = byteOf a i ^^^ byteOf b i) ∧ Hash.X a b = Hash.X b a ∧
      Hash.X (Hash.X a b) c = Hash.X a (Hash.X b c) ∧ Hash.X a zero512 = a ∧ Hash.X a a = zero512 ∧
      Hash.X zero512 (C.getD 0 0) = C.getD 0 0

/-- 40_hash_tables.md rule R75. -/
def Obligations.SubstitutionIsBytewiseBijection : Prop :=
  (∀ V : V512, ∀ i < 64, byteOf (Hash.S V) i = PI (byteOf V i)) ∧ Function.Bijective PI ∧ Function.Bijective Hash.S ∧
    ∀ i < 64, byteOf (Hash.S zero512) i = 0xfc

/-- 40_hash_tables.md rule R76. -/
def Obligations.PermutationTransposesBytes : Prop :=
  (∀ V : V512,
    (∀ i < 64, byteOf (Hash.P V) i = byteOf V (TAU i)) ∧
      (∀ w < 8, ∀ k < 8, byteOf (Hash.P V) (8 * w + k) = byteOf V (8 * k + w)) ∧ Hash.P (Hash.P V) = V ∧
      Hash.P (Hash.S V) = Hash.S (Hash.P V)) ∧
    (bytes512 (Hash.P (ofBytes ((List.range 64).map (BitVec.ofNat 8))))).take 12 =
      [0x00, 0x08, 0x10, 0x18, 0x20, 0x28, 0x30, 0x38, 0x01, 0x09, 0x11, 0x19]

/-- The GF(2) map on a lane. It rests on 40_hash_tables.md section 2 (`l64`), whose pairing of rows with bits the spec marks
as general knowledge (G3, decision D30), and on the rows of `A` (assumption log 12). -/
def Obligations.LaneMapXorsMatrixRows : Prop :=
  (∀ i < 64, Hash.l64 (BitVec.twoPow 64 (63 - i)) = A.getD i 0) ∧ Hash.l64 0 = 0 ∧
    (∀ x y : W64, Hash.l64 (x ^^^ y) = Hash.l64 x ^^^ Hash.l64 y) ∧ Function.Bijective Hash.l64 ∧
    Hash.l64 0x0000000000000003 = 0xac2453dd7d8f3d98 ∧ Hash.l64 0x0123456789abcdef = 0xa49049a565bdc399

/-- 40_hash_tables.md rule R78. -/
def Obligations.LinearTransformActsOnLanes : Prop :=
  (∀ V : V512, ∀ w < 8,
    laneOf (Hash.L V) w = Hash.l64 (laneOf V w) ∧
      ((bytes512 (Hash.L V)).drop (8 * w)).take 8 =
        bytes64 (Hash.l64 (be64 (((bytes512 V).drop (8 * w)).take 8)))) ∧
    Hash.L zero512 = zero512 ∧ (∀ a b : V512, Hash.L (Hash.X a b) = Hash.X (Hash.L a) (Hash.L b)) ∧
    laneOf (Hash.L (ofBytes ((List.range 64).map (BitVec.ofNat 8)))) 0 = Hash.l64 0x0001020304050607 ∧
    Hash.l64 0x0001020304050607 = 0x93953387e7118d52

/-- 40_hash_tables.md rule R79. -/
def Obligations.LpsIsSequentialAndBijective : Prop :=
  (∀ V : V512, Hash.LPS V = Hash.L (Hash.P (Hash.S V))) ∧ Function.Bijective Hash.LPS ∧
    (∀ w < 8, laneOf (Hash.LPS zero512) w = 0xb383fc2eced4a574) ∧
    lanes512 (Hash.LPS (ofBytes ((List.range 64).map (BitVec.ofNat 8)))) =
      [0x779271f561cd4cdf, 0x3a7222a756637361, 0x6e62ac376c30fc82, 0x5cf74a93ae2ea9b5, 0xf867468c999fa006,
        0xdc1d0fbf25c944fc, 0xcf1916b528bd95ca, 0xbba37579bf2e09a0]

/-- 40_hash_tables.md rule R82: the fused form, its equality with the sequential form, and DOC's test for it. -/
def Obligations.FusedTablesEqualSequentialTransform : Prop :=
  (∀ V : V512, ∀ w < 8,
    laneOf (Hash.LPSfused V) w = (List.range 8).foldl (fun r k => r ^^^ Hash.T k (byteOf V (8 * k + w))) 0) ∧
    (∀ V : V512, Hash.LPSfused V = Hash.LPS V) ∧
    ∀ (V V' : V512) (b : Byte), ∀ k < 8, ∀ w < 8, byteOf V' (8 * k + w) = b →
      (∀ j < 64, j ≠ 8 * k + w → byteOf V' j = byteOf V j) →
      laneOf (Hash.LPS V') w ^^^ laneOf (Hash.LPS V) w = Hash.T k b ^^^ Hash.T k (byteOf V (8 * k + w))

/-- 40_hash_tables.md rule R83: the sum as a number, and the byte loop with its carry (`Hash.carryAdd`, from byte 63 down). -/
def Obligations.Add512IsCarryLoop : Prop :=
  ∀ a b : V512,
    (Hash.ADD512 a b).toNat = (a.toNat + b.toNat) % 2 ^ 512 ∧
      (bytes512 (Hash.ADD512 a b)).reverse = Hash.carryAdd 0 ((bytes512 a).reverse.zip (bytes512 b).reverse) ∧
      Hash.ADD512 a zero512 = a ∧ Hash.ADD512 (BitVec.allOnes 512) 1 = zero512 ∧
      Hash.ADD512 (BitVec.allOnes 512) (BitVec.allOnes 512) = BitVec.allOnes 512 - 1

/-- The keyed transform as 13 key mixes and 12 transforms, and the compression function. It rests on 41_hash_compression.md
section 1 and 2, two lines of which the spec marks as general knowledge (G6, C1; assumption log 13). -/
def Obligations.KeyedTransformMixesThirteenKeys : Prop :=
  (∀ K : V512, ∃ k : Nat → V512,
    k 0 = K ∧ (∀ i < 12, k (i + 1) = Hash.LPS (Hash.X (k i) (C.getD i 0))) ∧
      ∀ m : V512, Hash.E K m = Hash.X (k 12) ((List.range 12).foldl (fun v i => Hash.LPS (Hash.X (k i) v)) m)) ∧
    (∀ K : V512, Function.Bijective (Hash.E K)) ∧
    ∀ h n m : V512, Hash.G h n m = Hash.X (Hash.X (Hash.E (Hash.LPS (Hash.X h n)) m) h) m

/-! ### The hash engine -/

/-- 42_hash_engine.md rule R101. -/
def Obligations.HInitClearsContext : Prop :=
  encode .hInit = [0x01] ∧
    (∀ s : State,
      exec .hInit s = .next { s with
        eng := { s.eng with h := zero512, N := zero512, Sigma := zero512, pend := [] },
        resps := s.resps ++ [⟨s.number, .ok []⟩] }) ∧
    (∀ s t : State, contextOf s.eng = initialContext → exec .hInit s = .next t → t.eng = s.eng) ∧
    ∃ t u : State, exec (.hUpdate [0x00]) State.reset = .next t ∧ t.eng.fill = 1 ∧ exec .hInit t = .next u ∧
      contextOf u.eng = initialContext

/-- 42_hash_engine.md rule R102: the byte loop on the hash context `(h, N, Sigma, pend)`, its response, the counts, and the
worked example. -/
def Obligations.HUpdateAbsorbsByteByByte : Prop :=
  (∀ (data : Bytes) (s : State),
    encode (.hUpdate data) = 0x02 :: (unpack 8 8 data.length ++ data) ∧
    ∃ t : State, exec (.hUpdate data) s = .next t ∧
      contextOf t.eng = data.foldl (fun c b =>
        let pend := c.2.2.2 ++ [b]
        if pend.length = 64 then
          (Hash.G c.1 c.2.1 (arrivedBlock pend), Hash.ADD512I c.2.1 512, Hash.ADD512 c.2.2.1 (arrivedBlock pend), [])
        else (c.1, c.2.1, c.2.2.1, pend)) (contextOf s.eng) ∧
      t = { s with eng := t.eng, resps := s.resps ++ [⟨s.number, .ok []⟩] } ∧
      (data = [] → t.eng = s.eng) ∧
      (s.eng.fill ≤ 63 →
        t.eng.fill = (s.eng.fill + data.length) % 64 ∧
          t.eng.N = s.eng.N + BitVec.ofNat 512 (512 * ((s.eng.fill + data.length) / 64)))) ∧
  ∃ t : State, exec (.hUpdate ((List.range 64).map (BitVec.ofNat 8))) State.reset = .next t ∧
    t.eng.h =
      0xf44c6364053a110c92a8ca18bb8ac31c16de18f7a885ea6613ff2fed5edb92857b409e6786db709cc56048e9286ee002a5e74e5bb0987b8433eb9052dcb32a08 ∧
    t.eng.N.toNat = 0x200 ∧ bytes512 t.eng.Sigma = ((List.range 64).map (BitVec.ofNat 8)).reverse ∧ t.eng.fill = 0

/-- 20_memory.md rule R27, for the block that `H_UPDATE` compresses. -/
def Obligations.WindowHoldsArrivalOrderReversed : Prop :=
  ∀ s : Bytes, s.length = 64 →
    (∀ i < 64, byteOf (arrivedBlock s) (63 - i) = s.getD i 0) ∧ bytes512 (arrivedBlock s) = s.reverse ∧
      (arrivedBlock s).toNat % 256 = (s.getD 0 0).toNat

/-- Streaming. It rests on 42_hash_engine.md section 5, which the spec marks as derived. -/
def Obligations.StreamingInvariance : Prop :=
  ∀ (a b : Bytes) (s : State), ∃ t u v : State,
    exec (.hUpdate a) s = .next t ∧ exec (.hUpdate b) t = .next u ∧ exec (.hUpdate (a ++ b)) s = .next v ∧
      u.eng = v.eng

/-- 42_hash_engine.md rule R103 and 20_memory.md rule R28: the padded block `m`, the three compressions, the digest, the
reset, the scratch it may write, and the worked example. -/
def Obligations.HFinalReturnsDigestAndResets : Prop :=
  encode .hFinal = [0x03] ∧
    (∃ t : State, exec .hFinal State.reset = .next t ∧ t.resps = [⟨0, .ok (bytes512
      0x8e945da209aa869f0455928529bcae4679e9873ab707b55315f56ceb98bef0a7362f715528356ee83cda5f2aac4c6ad2ba3a715c1bcd81cb8e9f90bf4c1c1a8a)⟩]) ∧
    ∀ s : State, s.eng.fill ≤ 63 → ∃ m : V512,
      (∀ i < 63 - s.eng.fill, byteOf m i = 0x00) ∧ byteOf m (63 - s.eng.fill) = 0x01 ∧
      (∀ i < s.eng.fill, byteOf m (63 - i) = s.eng.pend.getD i 0) ∧
      m.toNat = 256 ^ s.eng.fill +
        ((List.range s.eng.fill).map (fun i => (s.eng.pend.getD i 0).toNat * 256 ^ i)).sum ∧
      let N' := Hash.ADD512I s.eng.N (8 * s.eng.fill)
      let Sigma' := Hash.ADD512 s.eng.Sigma m
      let h3 := Hash.G (Hash.G (Hash.G s.eng.h s.eng.N m) zero512 N') zero512 Sigma'
      ∃ t : State, exec .hFinal s = .next t ∧ contextOf t.eng = initialContext ∧
        t = { s with
          eng := { s.eng with
            h := zero512, N := zero512, Sigma := zero512, pend := [], hs := t.eng.hs, Ki := t.eng.Ki, st := t.eng.st,
            m := t.eng.m },
          resps := s.resps ++ [⟨s.number, .ok ((List.range 64).map (fun i => byteOf h3 (63 - i)))⟩] }

/-- The digest of a whole message, in whatever chunks it comes and whatever was absorbed before. It rests on
42_hash_engine.md section 5, which the spec marks as derived. -/
def Obligations.DigestIsFunctionOfMessage : Prop :=
  ∀ (chunks : List Bytes) (s : State), ∃ t : State,
    runInstrs (.hInit :: (chunks.map .hUpdate ++ [.hFinal])) s = .next t ∧
      t.resps = s.resps ++ List.replicate (chunks.length + 1) ⟨s.number, .ok []⟩ ++
        [⟨s.number, .ok (Hash.DIGEST chunks.flatten)⟩] ∧
      contextOf t.eng = initialContext

/-- The context and the hash scratch hold nothing of the digest, and a second `H_FINAL` returns the digest of the empty
message. It rests on 70_reset_and_hazards.md section 4; that the scratch is zeroed is the spec's decision D7 (10_state.md
sections 3 and 7; assumption log 10). -/
def Obligations.DigestIsReturnedOnce : Prop :=
  ∀ s : State, ∃ t u : State,
    exec .hFinal s = .next t ∧ contextOf t.eng = initialContext ∧ HashScratchZero t.eng ∧
      exec .hFinal t = .next u ∧ u.resps = t.resps ++ [⟨s.number, .ok (Hash.DIGEST [])⟩]

/-- 42_hash_engine.md rule R106: reuse after `H_FINAL`, independence of engines, independence of the two paths. -/
def Obligations.ReuseAndIndependence : Prop :=
  (∀ s : State, CipherScratchZero s.eng → ∃ t : State, exec .hFinal s = .next t ∧ t.eng = Engine.reset) ∧
    (∀ (s t : State) (c : Command) (rest : List Command) (k : Nat),
      s.cmds = c :: rest → step s = .next t → k ≠ c.target → t.engines[k]? = s.engines[k]?) ∧
    ∀ (s : State) (key data text : Bytes) (block c : W64) (subkeys : List W32) (d : V512),
      ∀ i ∈ [Instr.kExpand key, .bEnc block subkeys, .ctrProc data key c, .keyHex text, .ctrHex text, .digHex d],
        ∃ t : State, exec i s = .next t ∧ contextOf t.eng = contextOf s.eng

/-! ### The cipher -/

/-- 43_cipher_block.md rules R116 and R117, the worked example among them. That `KW` and `RK` are zeroed at the end, which
R117 says, is the spec's decision D7 (assumption log 10). -/
def Obligations.KExpandReturnsSchedule : Prop :=
  (∀ (key : Bytes) (s : State),
    encode (.kExpand key) = 0x10 :: (unpack 8 8 key.length ++ key) ∧
    (key.length = 32 →
      let KW : Nat → W32 := fun j => be32 ((key.drop (4 * j)).take 4)
      let RK : Nat → W32 := fun i => if i < 24 then KW (i % 8) else KW (31 - i)
      exec (.kExpand key) s = .next { s with
        eng := { s.eng with KW := Vector.replicate 8 0, RK := Vector.replicate 32 0 },
        resps := s.resps ++ [⟨s.number, .ok ((List.range 32).flatMap (fun i => bytes32 (RK i)))⟩] }) ∧
    (key.length ≠ 32 →
      exec (.kExpand key) s = .next { s with resps := s.resps ++ [⟨s.number, .err .invalidKeyLength⟩] })) ∧
  let KEY : Bytes := [0xff, 0xee, 0xdd, 0xcc, 0xbb, 0xaa, 0x99, 0x88, 0x77, 0x66, 0x55, 0x44, 0x33, 0x22, 0x11, 0x00,
    0xf0, 0xf1, 0xf2, 0xf3, 0xf4, 0xf5, 0xf6, 0xf7, 0xf8, 0xf9, 0xfa, 0xfb, 0xfc, 0xfd, 0xfe, 0xff]
  let KW : List W32 := [0xffeeddcc, 0xbbaa9988, 0x77665544, 0x33221100, 0xf0f1f2f3, 0xf4f5f6f7, 0xf8f9fafb, 0xfcfdfeff]
  ∀ s : State, ∃ t : State, exec (.kExpand KEY) s = .next t ∧
    t.resps = s.resps ++ [⟨s.number, .ok ((KW ++ KW ++ KW ++ KW.reverse).flatMap bytes32)⟩]

/-- 43_cipher_block.md rule R118. -/
def Obligations.NibbleSubstitution : Prop :=
  (∀ x : W32, ∀ i < 8,
    (Cipher.t x).extractLsb' (4 * i) 4 = sboxAt (SB.getD i 0) (x.extractLsb' (4 * i) 4)) ∧
    Function.Bijective Cipher.t ∧ Cipher.t 0x00000000 = 0x1857cb6c ∧ Cipher.t 0xffffffff = 0x270cb0f1 ∧
    Cipher.t 0xfdb97531 = 0x2a196f34 ∧ Cipher.t 0x2a196f34 = 0xebd9f03a ∧ Cipher.t 0xebd9f03a = 0xb039bb3d ∧
    Cipher.t 0xb039bb3d = 0x68695433

/-- 43_cipher_block.md rule R119. -/
def Obligations.RoundFunctionAddsSubstitutesRotates : Prop :=
  (∀ k a : W32, ∀ j < 32, (Cipher.f k a).getLsbD ((j + 11) % 32) = (Cipher.t (a + k)).getLsbD j) ∧
    (∀ k a : W32, Cipher.f k a = Cipher.f a k) ∧ Cipher.f 0 0 = 0xbe5b60c2 ∧ Cipher.f 0xffffffff 1 = Cipher.f 0 0 ∧
    Cipher.f 0xffffffff 0xffffffff = 0x6587f938 ∧ Cipher.f 0x87654321 0xfedcba98 = 0xfdcbc20c ∧
    Cipher.f 0xfdcbc20c 0x87654321 = 0x7e791a4b ∧ Cipher.f 0x7e791a4b 0xfdcbc20c = 0xc76549ec ∧
    Cipher.f 0xc76549ec 0x7e791a4b = 0x9791c849 ∧ (0x80000000 : W32).rotateLeft 11 = 0x00000400 ∧
    (0xffe00000 : W32).rotateLeft 11 = 0x000007ff

/-- 43_cipher_block.md rules R120 and R122: `a r` and `b r` are the halves `n1` and `n2` before round `r`. The worked values
are R122's. That `RK`, `n1` and `n2` are zeroed at the end, which R122 says, is the spec's decision D7 (assumption log 10). -/
def Obligations.BEncRunsThirtyTwoRounds : Prop :=
  (∀ (block : W64) (subkeys : List W32) (s : State),
    encode (.bEnc block subkeys) =
      0x11 :: (bytes64 block ++ (unpack 8 8 subkeys.length ++ subkeys.flatMap bytes32)) ∧
    (subkeys.length = 32 → ∃ a b : Nat → W32,
      a 0 = be32 ((bytes64 block).take 4) ∧ b 0 = be32 ((bytes64 block).drop 4) ∧
      (∀ r < 31, a (r + 1) = b r ∧ b (r + 1) = a r ^^^ Cipher.f (subkeys.getD r 0) (b r)) ∧
      exec (.bEnc block subkeys) s = .next { s with
        eng := { s.eng with RK := Vector.replicate 32 0, n1 := 0, n2 := 0 },
        resps := s.resps ++ [⟨s.number, .ok
          (bytes32 (a 31 ^^^ Cipher.f (subkeys.getD 31 0) (b 31)) ++ bytes32 (b 31))⟩] }) ∧
    (subkeys.length ≠ 32 →
      exec (.bEnc block subkeys) s =
        .next { s with resps := s.resps ++ [⟨s.number, .err .invalidRoundKeyCount⟩] })) ∧
  let KW : List W32 := [0xffeeddcc, 0xbbaa9988, 0x77665544, 0x33221100, 0xf0f1f2f3, 0xf4f5f6f7, 0xf8f9fafb, 0xfcfdfeff]
  ∀ s : State, ∃ t u v : State,
    exec (.bEnc 0xfedcba9876543210 (KW ++ KW ++ KW ++ KW.reverse)) s = .next t ∧
      t.resps = s.resps ++ [⟨s.number, .ok [0x4e, 0xe9, 0x01, 0xe5, 0xc2, 0xd8, 0xca, 0x3d]⟩] ∧
    exec (.bEnc 0 (List.replicate 32 0)) s = .next u ∧
      u.resps = s.resps ++ [⟨s.number, .ok [0x78, 0xb6, 0xbd, 0x4a, 0x81, 0x72, 0x66, 0x59]⟩] ∧
    exec (.bEnc 0xffffffffffffffff (List.replicate 32 0xffffffff)) s = .next v ∧
      v.resps = s.resps ++ [⟨s.number, .ok [0xeb, 0x81, 0xab, 0x2a, 0xcd, 0x2f, 0x88, 0xb5]⟩]

/-- Reversed subkeys decrypt. It rests on 43_cipher_block.md section 4, which the spec marks as derived. -/
def Obligations.ReversedSubkeysDecrypt : Prop :=
  (∀ (rk : List W32) (block : W64) (s : State), rk.length = 32 → ∃ (c : W64) (t u : State),
    exec (.bEnc block rk) s = .next t ∧ t.resps = s.resps ++ [⟨s.number, .ok (bytes64 c)⟩] ∧
      exec (.bEnc c rk.reverse) t = .next u ∧ u.resps = t.resps ++ [⟨s.number, .ok (bytes64 block)⟩]) ∧
    ∀ rk : List W32, rk.length = 32 → Function.Bijective (Cipher.encryptBlock rk)

/-! ### The counter mode -/

/-- The output of `CTR_PROC`, byte by byte: data exclusive-or keystream, and the same for every leading part of the data. It
rests on 44_counter_mode.md sections 1 and 2 (decisions D13, D14). That all cipher scratch is zero afterwards, `KW`, `n1`
and `n2` too, and for empty data too, rests on 10_state.md sections 3 and 7 (decision D7) and assumption log 9, 10 and 21. -/
def Obligations.CtrProcXorsKeystream : Prop :=
  ∀ (data key : Bytes) (c : W64) (s : State), key.length = 32 → ∃ out : Bytes,
    out.length = data.length ∧
      (∀ p < data.length, out.getD p 0 = data.getD p 0 ^^^
        (bytes64 (Cipher.encryptBlock (Cipher.schedule (Cipher.keyWords key)) (c + BitVec.ofNat 64 (p / 8)))).getD
          (p % 8) 0) ∧
      ∀ n : Nat, exec (.ctrProc (data.take n) key c) s = .next { s with
        eng := { s.eng with
          KW := Vector.replicate 8 0, RK := Vector.replicate 32 0, ctr := 0, CB := 0, KS := 0, n1 := 0, n2 := 0 },
        resps := s.resps ++ [⟨s.number, .ok (out.take n)⟩] }

/-- 44_counter_mode.md rule R133: involution, length, and a result that depends on the three operands alone. -/
def Obligations.CtrProcIsInvolution : Prop :=
  ∀ (data key : Bytes) (c : W64), key.length = 32 → ∃ out : Bytes, out.length = data.length ∧
    ∀ s : State, ∃ t u : State,
      exec (.ctrProc data key c) s = .next t ∧ t.resps = s.resps ++ [⟨s.number, .ok out⟩] ∧
        exec (.ctrProc out key c) t = .next u ∧ u.resps = t.resps ++ [⟨s.number, .ok data⟩]

/-- Splitting a payload at a multiple of 8 bytes, the counter wrapping modulo 2^64 without error. It rests on
44_counter_mode.md section 2, which the spec marks as derived. -/
def Obligations.CtrProcContinuesAtBlockBoundary : Prop :=
  ∀ (a b key : Bytes) (c : W64) (s : State), key.length = 32 → a.length % 8 = 0 → ∃ (x y : Bytes) (t u v : State),
    exec (.ctrProc a key c) s = .next t ∧ t.resps = s.resps ++ [⟨s.number, .ok x⟩] ∧
      exec (.ctrProc b key (c + BitVec.ofNat 64 (a.length / 8))) s = .next u ∧
      u.resps = s.resps ++ [⟨s.number, .ok y⟩] ∧
      exec (.ctrProc (a ++ b) key c) s = .next v ∧ v.resps = s.resps ++ [⟨s.number, .ok (x ++ y)⟩]

/-- The key length error. It rests on 60_exceptions.md section 1; that the check holds for empty data too is the spec's
decision D13. -/
def Obligations.WrongKeyLengthIsReported : Prop :=
  ∀ (data key : Bytes) (c : W64) (s : State), key.length ≠ 32 →
    exec (.kExpand key) s = .next { s with resps := s.resps ++ [⟨s.number, .err .invalidKeyLength⟩] } ∧
      exec (.ctrProc data key c) s = .next { s with resps := s.resps ++ [⟨s.number, .err .invalidKeyLength⟩] }

/-! ### The operand text formats -/

/-- The hex digits of a text. It rests on 45_operand_format.md section 2 (decision D12). -/
def Obligations.HexDigitsAreTwentyTwoCodes : Prop :=
  (∀ d < 10, hexVal (BitVec.ofNat 8 (0x30 + d)) = some (BitVec.ofNat 4 d)) ∧
    (∀ d < 6, hexVal (BitVec.ofNat 8 (0x41 + d)) = some (BitVec.ofNat 4 (10 + d)) ∧
      hexVal (BitVec.ofNat 8 (0x61 + d)) = some (BitVec.ofNat 4 (10 + d))) ∧
    (∀ c : Byte, hexVal c = none ↔
      ¬ ((0x30 ≤ c.toNat ∧ c.toNat ≤ 0x39) ∨ (0x41 ≤ c.toNat ∧ c.toNat ≤ 0x46) ∨ (0x61 ≤ c.toNat ∧ c.toNat ≤ 0x66))) ∧
    stripHex [] = [] ∧
    (∀ (c : Byte) (v : BitVec 4) (text : Bytes), hexVal c = some v → stripHex (c :: text) = v :: stripHex text) ∧
    ∀ (c : Byte) (text : Bytes), hexVal c = none → stripHex (c :: text) = stripHex text

/-- `KEY_HEX`, and that the key it returns is accepted by `K_EXPAND`. It rests on 45_operand_format.md section 3 (the pairing
of digits is decision D12). -/
def Obligations.KeyHexParsesSixtyFourDigits : Prop :=
  ∀ (text : Bytes) (s : State),
    ((stripHex text).length = 64 → ∃ key : Bytes, key.length = 32 ∧
      (∀ j < 32, (key.getD j 0).toNat =
        16 * ((stripHex text).getD (2 * j) 0).toNat + ((stripHex text).getD (2 * j + 1) 0).toNat) ∧
      exec (.keyHex text) s = .next { s with resps := s.resps ++ [⟨s.number, .ok key⟩] } ∧
      ∃ (t : State) (rk : Bytes), exec (.kExpand key) s = .next t ∧ t.resps = s.resps ++ [⟨s.number, .ok rk⟩]) ∧
    ((stripHex text).length ≠ 64 →
      exec (.keyHex text) s = .next { s with resps := s.resps ++ [⟨s.number, .err .invalidHexKey⟩] })

/-- 45_operand_format.md rule R142, its worked examples and corner cases (`zz`, 17 zeros, 16 times `f`, `0x10`, `g1`) among it. -/
def Obligations.CtrHexParsesUpToSixteenDigits : Prop :=
  (∀ (text : Bytes) (s : State),
    encode (.ctrHex text) = 0x31 :: (unpack 8 8 text.length ++ text) ∧
    (0 < (stripHex text).length ∧ (stripHex text).length ≤ 16 → ∃ ctr : W64,
      ctr.toNat = ((List.range (stripHex text).length).map (fun i =>
        ((stripHex text).getD i 0).toNat * 16 ^ ((stripHex text).length - 1 - i))).sum ∧
      ctr.toNat < 16 ^ (stripHex text).length ∧
      bytes64 ctr = pairDigits (List.replicate (16 - (stripHex text).length) 0 ++ stripHex text) ∧
      exec (.ctrHex text) s = .next { s with resps := s.resps ++ [⟨s.number, .ok (bytes64 ctr)⟩] }) ∧
    ((stripHex text).length = 0 ∨ 16 < (stripHex text).length →
      exec (.ctrHex text) s = .next { s with resps := s.resps ++ [⟨s.number, .err .invalidCounterFormat⟩] })) ∧
    (∀ s : State, ∀ p ∈ ([
        ([0x31], 0x0000000000000001),
        ([0x31, 0x32, 0x33, 0x34, 0x35, 0x36, 0x37, 0x38], 0x0000000012345678),
        ([0x31, 0x32, 0x33, 0x34, 0x2d, 0x35, 0x36, 0x37, 0x38, 0x2d, 0x30, 0x30, 0x30, 0x30, 0x2d, 0x30, 0x30,
          0x30, 0x30], 0x1234567800000000),
        ([0x66, 0x66, 0x66, 0x66, 0x66, 0x66, 0x66, 0x66, 0x66, 0x66, 0x66, 0x66, 0x66, 0x66, 0x66, 0x66],
          0xffffffffffffffff),
        ([0x30, 0x78, 0x31, 0x30], 0x0000000000000010),
        ([0x67, 0x31], 0x0000000000000001)] : List (Bytes × W64)),
      exec (.ctrHex p.1) s = .next { s with resps := s.resps ++ [⟨s.number, .ok (bytes64 p.2)⟩] }) ∧
    ∀ s : State, ∀ text ∈ ([
        [0x31, 0x20, 0x30, 0x30, 0x30, 0x30, 0x20, 0x30, 0x30, 0x30, 0x30, 0x20, 0x30, 0x30, 0x30, 0x30, 0x20, 0x30,
          0x30, 0x30, 0x30],
        [],
        [0x7a, 0x7a],
        [0x30, 0x30, 0x30, 0x30, 0x30, 0x30, 0x30, 0x30, 0x30, 0x30, 0x30, 0x30, 0x30, 0x30, 0x30, 0x30, 0x30]] : List Bytes),
      exec (.ctrHex text) s = .next { s with resps := s.resps ++ [⟨s.number, .err .invalidCounterFormat⟩] }

/-- 45_operand_format.md rule R144: the characters, their range, the round trip, and the worked example (its text as eight
numbers of 16 characters each). -/
def Obligations.DigHexPrintsUppercaseText : Prop :=
  (∀ (d : V512) (s : State), encode (.digHex d) = 0x32 :: bytes512 d ∧ ∃ out : Bytes, out.length = 128 ∧
    (∀ i < 64, out.getD (2 * i) 0 = hexChars.getD ((byteOf d i).toNat / 16) 0 ∧
      out.getD (2 * i + 1) 0 = hexChars.getD ((byteOf d i).toNat % 16) 0) ∧
    (∀ c ∈ out, (0x30 ≤ c.toNat ∧ c.toNat ≤ 0x39) ∨ (0x41 ≤ c.toNat ∧ c.toNat ≤ 0x46)) ∧
    (stripHex out).length = 128 ∧ pairDigits (stripHex out) = bytes512 d ∧
    exec (.digHex d) s = .next { s with resps := s.resps ++ [⟨s.number, .ok out⟩] }) ∧
  ∀ s : State, ∃ t : State,
    exec (.digHex
      0x8e945da209aa869f0455928529bcae4679e9873ab707b55315f56ceb98bef0a7362f715528356ee83cda5f2aac4c6ad2ba3a715c1bcd81cb8e9f90bf4c1c1a8a)
      s = .next t ∧
    t.resps = s.resps ++ [⟨s.number, .ok (([
      0x38453934354441323039414138363946, 0x30343535393238353239424341453436,
      0x37394539383733414237303742353533, 0x31354635364345423938424546304137,
      0x33363246373135353238333536454538, 0x33434441354632414143344336414432,
      0x42413341373135433142434438314342, 0x38453946393042463443314331413841] : List Nat).flatMap (unpack 8 16))⟩]

/-! ### Errors -/

/-- 60_exceptions.md rule R156: an operation that raises an error has changed nothing, and its response holds no result. -/
def Obligations.FailedOperationChangesNothing : Prop :=
  ∀ (i : Instr) (s t : State) (e : ErrorKind),
    exec i s = .next t → t.resps = s.resps ++ [⟨s.number, .err e⟩] →
      t = { s with resps := s.resps ++ [⟨s.number, .err e⟩] } ∧
        (CipherScratchZero s.eng → CipherScratchZero t.eng) ∧ (HashScratchZero s.eng → HashScratchZero t.eng) ∧
        (Response.err e).frame = [e.code, 0, 0, 0, 0, 0, 0, 0, 0]

/-- Which operations raise which error, and on which condition. It rests on 60_exceptions.md section 1 (the codes are
decision D22, the check on empty data D13). -/
def Obligations.ErrorsAreRaisedExactlyWhen : Prop :=
  (ErrorKind.invalidKeyLength.code = 0x01 ∧ ErrorKind.invalidRoundKeyCount.code = 0x02 ∧
    ErrorKind.invalidHexKey.code = 0x03 ∧ ErrorKind.invalidCounterFormat.code = 0x04) ∧
  ∀ (i : Instr) (s : State), ∃ (t : State) (r : Response),
    exec i s = .next t ∧ t.resps = s.resps ++ [⟨s.number, r⟩] ∧
      ∀ e : ErrorKind, r = .err e ↔
        match i with
        | .hInit => False
        | .hUpdate _ => False
        | .hFinal => False
        | .kExpand key => key.length ≠ 32 ∧ e = .invalidKeyLength
        | .bEnc _ subkeys => subkeys.length ≠ 32 ∧ e = .invalidRoundKeyCount
        | .ctrProc _ key _ => key.length ≠ 32 ∧ e = .invalidKeyLength
        | .keyHex text => (stripHex text).length ≠ 64 ∧ e = .invalidHexKey
        | .ctrHex text =>
          ((stripHex text).length = 0 ∨ 16 < (stripHex text).length) ∧ e = .invalidCounterFormat
        | .digHex _ => False

/-- The frame of a response: the status byte, then the result as a BYTES field; the status is 0x00 for OK and one of the four
codes for an error, whose result is empty; two responses with one frame are the same response. It rests on 30_encoding.md
section 3 (decisions D2, D22) and 60_exceptions.md section 1 (decision D22). -/
def Obligations.ResponseFrameCarriesStatusAndResult : Prop :=
  (∀ result : Bytes,
    (Response.ok result).frame = 0x00 :: (unpack 8 8 result.length ++ result) ∧
      (Response.ok result).frame.length = 9 + result.length) ∧
    (Response.err .invalidKeyLength).frame = [0x01, 0, 0, 0, 0, 0, 0, 0, 0] ∧
    (Response.err .invalidRoundKeyCount).frame = [0x02, 0, 0, 0, 0, 0, 0, 0, 0] ∧
    (Response.err .invalidHexKey).frame = [0x03, 0, 0, 0, 0, 0, 0, 0, 0] ∧
    (Response.err .invalidCounterFormat).frame = [0x04, 0, 0, 0, 0, 0, 0, 0, 0] ∧
    ∀ r r' : Response, r.frame = r'.frame → r = r'

/-! ### The machine -/

/-- The state after reset. It rests on 10_state.md section 6 (`N`, `Sigma`, `fill` are the spec's decision D10, the scratch
D7); that one engine is present and MAXLEN is unbounded is the model's choice (assumption log 1 and 2), that `KW` is zero
assumption log 9. -/
def Obligations.ResetState : Prop :=
  contextOf State.reset.eng = initialContext ∧ State.reset.eng.fill = 0 ∧ CipherScratchZero State.reset.eng ∧
    HashScratchZero State.reset.eng ∧ State.reset.engines = [Engine.reset] ∧ State.reset.maxLen = none ∧
    State.reset.cmds = [] ∧ State.reset.resps = []

/-- The reset state meets the invariant, for any number of engines and any MAXLEN. It rests on 10_state.md sections 2, 3, 6.
`N` and `fill` at reset are the spec's decision D10 (assumption log 11), the other scratch D7; that `KW` is zero is the
model's choice (assumption log 9). -/
def Obligations.ResetMeetsInvariant : Prop :=
  ∀ (maxLen : Option Nat) (others : Nat), StateInv (State.resetWith maxLen others)

/-- Every step keeps, for every engine: `fill` at most 63, `N` a multiple of 512, all scratch zero; and the number of engines
and MAXLEN. It rests on 10_state.md sections 2, 3 and 7 (the zeroing is decision D7, assumption log 10 and 21; that `KW`
is scratch is assumption log 9). -/
def Obligations.StepKeepsInvariant : Prop :=
  ∀ s t : State, StateInv s → step s = .next t →
    StateInv t ∧ t.engines.length = s.engines.length ∧ t.maxLen = s.maxLen

/-- What each operation leaves alone. It rests on 10_state.md section 7, which the spec marks as derived. -/
def Obligations.OperationFrames : Prop :=
  ∀ (i : Instr) (s t : State), exec i s = .next t →
    t.maxLen = s.maxLen ∧ t.before = s.before ∧ t.after = s.after ∧ t.cmds = s.cmds ∧
    (match i with
      | .hInit => t.eng = { s.eng with h := t.eng.h, N := t.eng.N, Sigma := t.eng.Sigma, pend := t.eng.pend }
      | .hUpdate _ => t.eng = { s.eng with
          h := t.eng.h, N := t.eng.N, Sigma := t.eng.Sigma, pend := t.eng.pend, hs := t.eng.hs, Ki := t.eng.Ki,
          st := t.eng.st }
      | .hFinal => t.eng = { s.eng with
          h := t.eng.h, N := t.eng.N, Sigma := t.eng.Sigma, pend := t.eng.pend, hs := t.eng.hs, Ki := t.eng.Ki,
          st := t.eng.st, m := t.eng.m }
      | .kExpand _ => t.eng = { s.eng with KW := t.eng.KW, RK := t.eng.RK }
      | .bEnc _ _ => t.eng = { s.eng with RK := t.eng.RK, n1 := t.eng.n1, n2 := t.eng.n2 }
      | .ctrProc _ _ _ => t.eng = { s.eng with
          KW := t.eng.KW, RK := t.eng.RK, ctr := t.eng.ctr, CB := t.eng.CB, KS := t.eng.KS, n1 := t.eng.n1,
          n2 := t.eng.n2 }
      | .keyHex _ => t.eng = s.eng
      | .ctrHex _ => t.eng = s.eng
      | .digHex _ => t.eng = s.eng)

/-- A step runs the decoded command: the engine it is sent to is addressed, no engine changes by that, the command is taken,
and the operation runs. It rests on 00_scope.md section 5 and 30_encoding.md section 3. -/
def Obligations.StepRunsDecodedCommand : Prop :=
  ∀ (s : State) (c : Command) (rest : List Command) (i : Instr),
    s.cmds = c :: rest → c.target < s.engines.length → decode s.maxLen c.frame = .ok i →
      ∃ a : State, a.engines = s.engines ∧ a.number = c.target ∧ s.engines[c.target]? = some a.eng ∧
        a.maxLen = s.maxLen ∧ a.cmds = rest ∧ a.resps = s.resps ∧ step s = exec i a

/-- A command that can be taken is answered: one response, of the engine it was sent to, and every earlier response stays. It
rests on 30_encoding.md section 3 and 00_scope.md section 5. -/
def Obligations.EveryDecodedCommandIsAnsweredOnce : Prop :=
  ∀ (s : State) (c : Command) (rest : List Command) (i : Instr),
    s.cmds = c :: rest → c.target < s.engines.length → decode s.maxLen c.frame = .ok i →
      ∃ (t : State) (r : Response), step s = .next t ∧ t.cmds = rest ∧ t.resps = s.resps ++ [⟨c.target, r⟩]

/-- A frame that does not decode is refused before any operand is looked at. It rests on 30_encoding.md section 5 and
60_exceptions.md section 4 (decisions D4, D27); the names of the reasons are the model's (assumption log 5). -/
def Obligations.UndecodableFrameIsRefused : Prop :=
  ∀ (s : State) (c : Command) (rest : List Command) (why : DecodeError),
    s.cmds = c :: rest → c.target < s.engines.length → decode s.maxLen c.frame = .error why →
      step s = .refused (.undecodable why)

/-- With no command the machine holds its state. It rests on 60_exceptions.md section 6 and assumption log 4. -/
def Obligations.NoCommandNoChange : Prop :=
  ∀ s : State, s.cmds = [] → step s = .next s

/-- Engines never interfere: after all commands are run, an engine's state and responses are a function of its own earlier
state and of the frames sent to it, whatever else is sent to whom and in what order. It rests on 20_memory.md section 5. -/
def Obligations.EnginesDoNotInterfere : Prop :=
  ∀ (k : Nat) (s s' t t' : State),
    s.maxLen = s'.maxLen → s.engines[k]? = s'.engines[k]? → framesTo k s.cmds = framesTo k s'.cmds →
    responsesOf k s.resps = responsesOf k s'.resps →
    runSteps s.cmds.length s = .next t → runSteps s'.cmds.length s' = .next t' →
      t.engines[k]? = t'.engines[k]? ∧ responsesOf k t.resps = responsesOf k t'.resps

/-! ### The command frame -/

/-- The encoding of every command that a frame can carry decodes to it, every operand included. It rests on 30_encoding.md
sections 3 and 4 (decisions D2, D3). -/
def Obligations.DecodeOfEncode : Prop :=
  ∀ (maxLen : Option Nat) (i : Instr), WellFormed maxLen i → decode maxLen (encode i) = .ok i

/-- A frame that decodes is the encoding of its command, and the command is one that a frame can carry: no other frame means
it. It rests on 30_encoding.md sections 3 to 5 (decisions D2 to D4). -/
def Obligations.DecodedFrameIsItsEncoding : Prop :=
  ∀ (maxLen : Option Nat) (frame : Bytes) (i : Instr),
    decode maxLen frame = .ok i → frame = encode i ∧ WellFormed maxLen i

/-- Every first byte outside the opcode map is refused under its name, and every opcode-map byte is some command's. It rests
on 30_encoding.md sections 4 and 5 (decisions D3, D4); the name of the refusal is the model's (assumption log 5). -/
def Obligations.ReservedOpcodesAreRefused : Prop :=
  ∀ (maxLen : Option Nat) (op : Byte) (rest : Bytes),
    (op ∉ [0x01, 0x02, 0x03, 0x10, 0x11, 0x20, 0x30, 0x31, 0x32] →
      decode maxLen (op :: rest) = .error (.reservedOpcode op)) ∧
    (op ∈ [0x01, 0x02, 0x03, 0x10, 0x11, 0x20, 0x30, 0x31, 0x32] → ∃ i : Instr, opcodeOf i = op)

/-- A frame whose length field announces more than MAXLEN is refused: the only field of a format FB command, the data and the
key of `CTR_PROC`, the word count of `B_ENC` (four bytes a word). It rests on 30_encoding.md section 5 (decisions D4, D9).
That it is named `overMaxLen` whatever follows, where the frame is too short as well, is the model's choice: the first defect
met is the one named (assumption log 5). -/
def Obligations.LengthOverMaxIsRefused : Prop :=
  ∀ (m n : Nat) (data block rest : Bytes), m < n → n < 2 ^ 64 → data.length ≤ m → block.length = 8 →
    (∀ op ∈ [(0x02 : Byte), 0x10, 0x20, 0x30, 0x31],
      decode (some m) (op :: (unpack 8 8 n ++ rest)) = .error .overMaxLen) ∧
    decode (some m) (0x20 :: (unpack 8 8 data.length ++ (data ++ (unpack 8 8 n ++ rest)))) = .error .overMaxLen ∧
    ∀ words : Nat, m < 4 * words → words < 2 ^ 64 →
      decode (some m) (0x11 :: (block ++ (unpack 8 8 words ++ rest))) = .error .overMaxLen

/-- Frames written out from the spec's formats (95_test_vectors.md sections 9.1 and 9.3) decode as the spec says; the names of
the refusals are the model's (assumption log 5). -/
def Obligations.ExampleFramesDecode : Prop :=
  decode none [0x01] = .ok .hInit ∧
    decode none [0x02, 0, 0, 0, 0, 0, 0, 0, 3, 0x61, 0x62, 0x63] = .ok (.hUpdate [0x61, 0x62, 0x63]) ∧
    decode none [0x11, 0xfe, 0xdc, 0xba, 0x98, 0x76, 0x54, 0x32, 0x10, 0, 0, 0, 0, 0, 0, 0, 0] =
      .ok (.bEnc 0xfedcba9876543210 []) ∧
    decode none [0x20, 0, 0, 0, 0, 0, 0, 0, 0, 0, 0, 0, 0, 0, 0, 0, 0, 0, 0, 0, 0, 0, 0, 0, 5] =
      .ok (.ctrProc [] [] 5) ∧
    decode none [0x31, 0, 0, 0, 0, 0, 0, 0, 2, 0x7a, 0x7a] = .ok (.ctrHex [0x7a, 0x7a]) ∧
    decode none [0x01, 0x00] = .error .tooLong ∧
    decode none [0x02, 0, 0, 0, 0, 0, 0, 0, 3, 0x61, 0x62] = .error .tooShort ∧
    decode none [0x02, 0, 0, 0, 0, 0, 0, 0, 3, 0x61, 0x62, 0x63, 0x64] = .error .tooLong ∧
    decode none [0x00] = .error (.reservedOpcode 0x00)
end

