-- ==== Sys2Proof/Laws/Bytes.lean ====
section
/-! SUPPORT. The laws of the digit strings and views of Machine/Bytes.lean: each view is written and read back here once, so
that no later proof unfolds `pack` or `unpack`. -/

namespace Sys2Proof.Machine

theorem foldl_digits {w : Nat} (ds : List (BitVec w)) (acc : Nat) :
    ds.foldl (fun a d => a * 2 ^ w + d.toNat) acc = acc * 2 ^ (w * ds.length) + pack ds := by
  induction ds generalizing acc with
  | nil => simp [pack]
  | cons d ds ih =>
    simp only [List.foldl_cons, pack, List.length_cons]
    rw [ih, ih (0 * 2 ^ w + d.toNat)]
    rw [Nat.mul_add, Nat.pow_add]
    ring

@[simp] theorem pack_nil {w : Nat} : pack ([] : List (BitVec w)) = 0 := rfl

theorem pack_cons {w : Nat} (d : BitVec w) (ds : List (BitVec w)) :
    pack (d :: ds) = d.toNat * 2 ^ (w * ds.length) + pack ds := by
  have h := foldl_digits ds (0 * 2 ^ w + d.toNat)
  simpa [pack] using h

theorem pack_append {w : Nat} (xs ys : List (BitVec w)) :
    pack (xs ++ ys) = pack xs * 2 ^ (w * ys.length) + pack ys := by
  induction xs with
  | nil => simp
  | cons x xs ih =>
    simp only [List.cons_append, pack_cons, List.length_append, ih, Nat.mul_add, Nat.pow_add]
    ring

theorem pack_lt {w : Nat} (ds : List (BitVec w)) : pack ds < 2 ^ (w * ds.length) := by
  induction ds with
  | nil => simp
  | cons d ds ih =>
    rw [pack_cons, List.length_cons, Nat.mul_add, Nat.pow_add, Nat.mul_one]
    have hd := d.isLt
    have : (d.toNat + 1) * 2 ^ (w * ds.length) ≤ 2 ^ w * 2 ^ (w * ds.length) :=
      Nat.mul_le_mul_right _ hd
    nlinarith

@[simp] theorem length_unpack (w n x : Nat) : (unpack w n x).length = n := by
  induction n with
  | zero => rfl
  | succ n ih => simp [unpack, ih]

theorem pack_unpack (w n x : Nat) : pack (unpack w n x) = x % 2 ^ (w * n) := by
  induction n with
  | zero => simp [unpack, Nat.mod_one]
  | succ n ih =>
    rw [unpack, pack_cons, length_unpack, ih, BitVec.toNat_ofNat, Nat.mul_add, Nat.mul_one, Nat.pow_add,
      Nat.mod_mul]
    ring

theorem unpack_mod (w n x : Nat) : unpack w n (x % 2 ^ (w * n)) = unpack w n x := by
  suffices h : ∀ m, n ≤ m → unpack w n (x % 2 ^ (w * m)) = unpack w n x from h n (Nat.le_refl n)
  induction n with
  | zero => intro m _; rfl
  | succ n ih =>
    intro m hm
    rw [unpack, unpack, ih m (by omega)]
    congr 1
    apply BitVec.eq_of_toNat_eq
    rw [BitVec.toNat_ofNat, BitVec.toNat_ofNat]
    have hsplit : w * m = w * n + w * (m - n) := by
      rw [← Nat.mul_add]; congr 1; omega
    rw [hsplit, Nat.pow_add, Nat.mod_mul_right_div_self]
    apply Nat.mod_mod_of_dvd
    apply Nat.pow_dvd_pow
    calc w = w * 1 := (Nat.mul_one w).symm
      _ ≤ w * (m - n) := Nat.mul_le_mul_left _ (by omega)

theorem unpack_pack {w : Nat} (ds : List (BitVec w)) : unpack w ds.length (pack ds) = ds := by
  induction ds with
  | nil => rfl
  | cons d ds ih =>
    rw [List.length_cons, unpack, pack_cons]
    have hlt := pack_lt ds
    congr 1
    · apply BitVec.eq_of_toNat_eq
      rw [BitVec.toNat_ofNat, Nat.add_comm, Nat.add_mul_div_right _ _ (Nat.two_pow_pos _),
        Nat.div_eq_of_lt hlt, Nat.zero_add, Nat.mod_eq_of_lt d.isLt]
    · rw [← unpack_mod, Nat.add_comm, Nat.add_mul_mod_self_right, Nat.mod_eq_of_lt hlt, ih]

theorem unpack_eq_of_length {w n : Nat} {ds : List (BitVec w)} (h : ds.length = n) : unpack w n (pack ds) = ds := by
  subst h; exact unpack_pack ds

theorem getElem_unpack (w n x i : Nat) (h : i < (unpack w n x).length) :
    (unpack w n x)[i] = BitVec.ofNat w (x / 2 ^ (w * (n - 1 - i))) := by
  induction n generalizing i with
  | zero => simp at h
  | succ n ih =>
    cases i with
    | zero => simp [unpack]
    | succ i =>
      simp only [unpack, List.getElem_cons_succ]
      rw [ih]
      congr 4
      omega

/-! ### The views of a V512 -/

theorem pow512_bytes : 2 ^ 512 = 2 ^ (8 * 64) := congrArg (2 ^ ·) (rfl : 512 = 8 * 64)

theorem pow512_lanes : 2 ^ 512 = 2 ^ (64 * 8) := congrArg (2 ^ ·) (rfl : 512 = 64 * 8)

@[simp] theorem length_bytes512 (V : V512) : (bytes512 V).length = 64 := length_unpack _ _ _

@[simp] theorem length_lanes512 (V : V512) : (lanes512 V).length = 8 := length_unpack _ _ _

@[simp] theorem ofBytes_bytes512 (V : V512) : ofBytes (bytes512 V) = V := by
  have hV : V.toNat < 2 ^ (8 * 64) := Nat.lt_of_lt_of_eq V.isLt pow512_bytes
  rw [ofBytes, bytes512, pack_unpack, Nat.mod_eq_of_lt hV, BitVec.ofNat_toNat, BitVec.setWidth_eq]

@[simp] theorem ofLanes_lanes512 (V : V512) : ofLanes (lanes512 V) = V := by
  have hV : V.toNat < 2 ^ (64 * 8) := Nat.lt_of_lt_of_eq V.isLt pow512_lanes
  rw [ofLanes, lanes512, pack_unpack, Nat.mod_eq_of_lt hV, BitVec.ofNat_toNat, BitVec.setWidth_eq]

theorem bytes512_ofBytes {s : Bytes} (h : s.length = 64) : bytes512 (ofBytes s) = s := by
  have hlt := pack_lt s
  rw [h] at hlt
  rw [ofBytes, bytes512, BitVec.toNat_ofNat, pow512_bytes, Nat.mod_eq_of_lt hlt, unpack_eq_of_length h]

theorem lanes512_ofLanes {ls : List W64} (h : ls.length = 8) : lanes512 (ofLanes ls) = ls := by
  have hlt := pack_lt ls
  rw [h] at hlt
  rw [ofLanes, lanes512, BitVec.toNat_ofNat, pow512_lanes, Nat.mod_eq_of_lt hlt, unpack_eq_of_length h]

theorem getElem_bytes512 (V : V512) (i : Nat) (h : i < (bytes512 V).length) : (bytes512 V)[i] = byteOf V i := by
  have hi : i < 64 := by simpa using h
  rw [show (bytes512 V)[i] = (unpack 8 64 V.toNat)[i]'(by simpa using hi) from rfl, getElem_unpack]
  apply BitVec.eq_of_toNat_eq
  simp [byteOf, BitVec.extractLsb'_toNat, Nat.shiftRight_eq_div_pow]

theorem getElem_lanes512 (V : V512) (i : Nat) (h : i < (lanes512 V).length) : (lanes512 V)[i] = laneOf V i := by
  have hi : i < 8 := by simpa using h
  rw [show (lanes512 V)[i] = (unpack 64 8 V.toNat)[i]'(by simpa using hi) from rfl, getElem_unpack]
  apply BitVec.eq_of_toNat_eq
  simp [laneOf, BitVec.extractLsb'_toNat, Nat.shiftRight_eq_div_pow]

theorem bytes512_eq_map (V : V512) : bytes512 V = (List.range 64).map (byteOf V) := by
  apply List.ext_getElem (by simp)
  intro i h1 h2
  rw [getElem_bytes512, List.getElem_map, List.getElem_range]

theorem lanes512_eq_map (V : V512) : lanes512 V = (List.range 8).map (laneOf V) := by
  apply List.ext_getElem (by simp)
  intro i h1 h2
  rw [getElem_lanes512, List.getElem_map, List.getElem_range]

theorem byteOf_ofBytes {s : Bytes} (h : s.length = 64) {i : Nat} (hi : i < 64) :
    byteOf (ofBytes s) i = s[i]'(by omega) := by
  rw [← getElem_bytes512 _ _ (by simpa using hi)]
  simp only [bytes512_ofBytes h]

theorem laneOf_ofLanes {ls : List W64} (h : ls.length = 8) {i : Nat} (hi : i < 8) :
    laneOf (ofLanes ls) i = ls[i]'(by omega) := by
  rw [← getElem_lanes512 _ _ (by simpa using hi)]
  simp only [lanes512_ofLanes h]

/-- Two V512 are equal when their bytes are (20_memory.md rule R33). -/
theorem eq_of_byteOf {V W : V512} (h : ∀ i < 64, byteOf V i = byteOf W i) : V = W := by
  have hv : bytes512 V = bytes512 W := by
    rw [bytes512_eq_map, bytes512_eq_map]
    exact List.map_congr_left fun i hi => h i (by simpa using hi)
  calc V = ofBytes (bytes512 V) := (ofBytes_bytes512 V).symm
    _ = W := by rw [hv, ofBytes_bytes512]

/-- Two V512 are equal when their lanes are (20_memory.md rule R33). -/
theorem eq_of_laneOf {V W : V512} (h : ∀ i < 8, laneOf V i = laneOf W i) : V = W := by
  have hv : lanes512 V = lanes512 W := by
    rw [lanes512_eq_map, lanes512_eq_map]
    exact List.map_congr_left fun i hi => h i (by simpa using hi)
  calc V = ofLanes (lanes512 V) := (ofLanes_lanes512 V).symm
    _ = W := by rw [hv, ofLanes_lanes512]

/-- Byte `k` of lane `w` is byte `8w + k` (20_memory.md rule R30). -/
theorem laneOf_eq_pack (V : V512) {w : Nat} (hw : w < 8) :
    laneOf V w = BitVec.ofNat 64 (pack ((List.range 8).map (fun k => byteOf V (8 * w + k)))) := by
  have hb : (List.range 8).map (fun k => byteOf V (8 * w + k)) = unpack 8 8 (laneOf V w).toNat := by
    apply List.ext_getElem (by simp)
    intro k h1 h2
    have hk : k < 8 := by simpa using h1
    rw [getElem_unpack, List.getElem_map, List.getElem_range]
    apply BitVec.eq_of_toNat_eq
    simp only [byteOf, laneOf, BitVec.extractLsb'_toNat, Nat.shiftRight_eq_div_pow, BitVec.toNat_ofNat]
    have e1 : 8 * (63 - (8 * w + k)) = 64 * (7 - w) + 8 * (8 - 1 - k) := by omega
    rw [e1, Nat.pow_add, ← Nat.div_div_eq_div_mul]
    rw [show (64 : Nat) = 8 * (8 - 1 - k) + (8 * k + 8) by omega, Nat.pow_add 2 (8 * (8 - 1 - k)) (8 * k + 8)]
    rw [Nat.mod_mul_right_div_self]
    rw [Nat.mod_mod_of_dvd _ (Nat.pow_dvd_pow 2 (by omega : 8 ≤ 8 * k + 8))]
  rw [hb, pack_unpack]
  apply BitVec.eq_of_toNat_eq
  rw [BitVec.toNat_ofNat]
  have := (laneOf V w).isLt
  omega

/-! ### The views of words and blocks -/

@[simp] theorem length_bytes32 (x : W32) : (bytes32 x).length = 4 := length_unpack _ _ _

@[simp] theorem length_bytes64 (x : W64) : (bytes64 x).length = 8 := length_unpack _ _ _

@[simp] theorem be32_bytes32 (x : W32) : be32 (bytes32 x) = x := by
  apply BitVec.eq_of_toNat_eq
  have := x.isLt
  rw [be32, bytes32, pack_unpack, BitVec.toNat_ofNat]
  omega

@[simp] theorem be64_bytes64 (x : W64) : be64 (bytes64 x) = x := by
  apply BitVec.eq_of_toNat_eq
  have := x.isLt
  rw [be64, bytes64, pack_unpack, BitVec.toNat_ofNat]
  omega

theorem bytes32_be32 {s : Bytes} (h : s.length = 4) : bytes32 (be32 s) = s := by
  have hlt := pack_lt s
  rw [h] at hlt
  rw [be32, bytes32, BitVec.toNat_ofNat, Nat.mod_eq_of_lt hlt, unpack_eq_of_length h]

theorem bytes64_be64 {s : Bytes} (h : s.length = 8) : bytes64 (be64 s) = s := by
  have hlt := pack_lt s
  rw [h] at hlt
  rw [be64, bytes64, BitVec.toNat_ofNat, Nat.mod_eq_of_lt hlt, unpack_eq_of_length h]

theorem toNat_firstHalf (x : W64) : (firstHalf x).toNat = x.toNat / 2 ^ 32 := by
  have := x.isLt
  simp only [firstHalf, BitVec.extractLsb'_toNat, Nat.shiftRight_eq_div_pow]
  omega

theorem toNat_secondHalf (x : W64) : (secondHalf x).toNat = x.toNat % 2 ^ 32 := by
  simp [secondHalf, BitVec.extractLsb'_toNat]

theorem toNat_joinHalves (a b : W32) : (joinHalves a b).toNat = a.toNat * 2 ^ 32 + b.toNat := by
  rw [joinHalves, BitVec.toNat_append, ← Nat.shiftLeft_add_eq_or_of_lt b.isLt, Nat.shiftLeft_eq]

@[simp] theorem firstHalf_joinHalves (a b : W32) : firstHalf (joinHalves a b) = a := by
  apply BitVec.eq_of_toNat_eq
  rw [toNat_firstHalf, toNat_joinHalves]
  omega

@[simp] theorem secondHalf_joinHalves (a b : W32) : secondHalf (joinHalves a b) = b := by
  apply BitVec.eq_of_toNat_eq
  rw [toNat_secondHalf, toNat_joinHalves]
  omega

@[simp] theorem joinHalves_halves (x : W64) : joinHalves (firstHalf x) (secondHalf x) = x := by
  apply BitVec.eq_of_toNat_eq
  rw [toNat_joinHalves, toNat_firstHalf, toNat_secondHalf]
  omega

/-- The bytes of a block are the bytes of its halves in order (20_memory.md rule R31). -/
theorem bytes64_joinHalves (a b : W32) : bytes64 (joinHalves a b) = bytes32 a ++ bytes32 b := by
  have h : pack (bytes32 a ++ bytes32 b) = (joinHalves a b).toNat := by
    rw [pack_append, length_bytes32, bytes32, bytes32, pack_unpack, pack_unpack, toNat_joinHalves]
    have := a.isLt
    have := b.isLt
    omega
  rw [bytes64, ← h]
  exact unpack_eq_of_length (by simp)

@[simp] theorem length_toWords (s : Bytes) : (toWords s).length = s.length / 4 := by
  induction s using toWords.induct with
  | case1 a b c d rest ih => simp [toWords, ih]; omega
  | case2 s h =>
    match s, h with
    | [], _ => rfl
    | [_], _ => simp [toWords]
    | [_, _], _ => simp [toWords]
    | [_, _, _], _ => simp [toWords]
    | a :: b :: c :: d :: rest, h => exact absurd rfl (h a b c d rest)

theorem ofWords_cons (x : W32) (ws : List W32) : ofWords (x :: ws) = bytes32 x ++ ofWords ws := rfl

@[simp] theorem length_ofWords (ws : List W32) : (ofWords ws).length = 4 * ws.length := by
  induction ws with
  | nil => rfl
  | cons x ws ih => simp [ofWords_cons, ih]; omega

@[simp] theorem toWords_ofWords (ws : List W32) : toWords (ofWords ws) = ws := by
  induction ws with
  | nil => rfl
  | cons x ws ih =>
    have hb : ∀ s : Bytes, s.length = 4 → ∀ r, toWords (s ++ r) = be32 s :: toWords r := by
      intro s hs r
      match s, hs with
      | [a, b, c, d], _ => rfl
    rw [ofWords_cons, hb _ (length_bytes32 x), ih, be32_bytes32]

theorem ofWords_toWords {s : Bytes} (h : 4 ∣ s.length) : ofWords (toWords s) = s := by
  induction s using toWords.induct with
  | case1 a b c d rest ih =>
    have hr : 4 ∣ rest.length := by simp only [List.length_cons] at h; omega
    rw [toWords, ofWords_cons, ih hr, bytes32_be32 (by rfl)]
    rfl
  | case2 s hs =>
    match s, hs, h with
    | [], _, _ => rfl
    | [_], _, h => simp at h
    | [_, _], _, h => simp at h
    | [_, _, _], _, h => simp at h
    | a :: b :: c :: d :: rest, hs, _ => exact absurd rfl (hs a b c d rest)

/-- A register file loaded from as many words as it has holds them in order. -/
theorem toList_wordFile {n : Nat} {ws : List W32} (h : ws.length = n) : (wordFile n ws).toList = ws := by
  subst h
  apply List.ext_getElem
  · simp [wordFile]
  · intro i h1 h2
    simp [wordFile, List.getD_eq_getElem?_getD, List.getElem?_eq_getElem h2]

end Sys2Proof.Machine
end

