-- ==== Sys2Proof/Laws/State.lean ====
section
/-! SUPPORT. One lemma for each field under each update of the state and of an engine, true by rfl. -/

namespace Sys2Proof.Machine

/-! ### clearContext -/

@[simp] theorem Engine.clearContext_h (e : Engine) : e.clearContext.h = zero512 := rfl
@[simp] theorem Engine.clearContext_N (e : Engine) : e.clearContext.N = zero512 := rfl
@[simp] theorem Engine.clearContext_Sigma (e : Engine) : e.clearContext.Sigma = zero512 := rfl
@[simp] theorem Engine.clearContext_pend (e : Engine) : e.clearContext.pend = [] := rfl
@[simp] theorem Engine.clearContext_KW (e : Engine) : e.clearContext.KW = e.KW := rfl
@[simp] theorem Engine.clearContext_RK (e : Engine) : e.clearContext.RK = e.RK := rfl
@[simp] theorem Engine.clearContext_ctr (e : Engine) : e.clearContext.ctr = e.ctr := rfl
@[simp] theorem Engine.clearContext_CB (e : Engine) : e.clearContext.CB = e.CB := rfl
@[simp] theorem Engine.clearContext_KS (e : Engine) : e.clearContext.KS = e.KS := rfl
@[simp] theorem Engine.clearContext_n1 (e : Engine) : e.clearContext.n1 = e.n1 := rfl
@[simp] theorem Engine.clearContext_n2 (e : Engine) : e.clearContext.n2 = e.n2 := rfl
@[simp] theorem Engine.clearContext_hs (e : Engine) : e.clearContext.hs = e.hs := rfl
@[simp] theorem Engine.clearContext_Ki (e : Engine) : e.clearContext.Ki = e.Ki := rfl
@[simp] theorem Engine.clearContext_st (e : Engine) : e.clearContext.st = e.st := rfl
@[simp] theorem Engine.clearContext_m (e : Engine) : e.clearContext.m = e.m := rfl

/-! ### clearCompression -/

@[simp] theorem Engine.clearCompression_h (e : Engine) : e.clearCompression.h = e.h := rfl
@[simp] theorem Engine.clearCompression_N (e : Engine) : e.clearCompression.N = e.N := rfl
@[simp] theorem Engine.clearCompression_Sigma (e : Engine) : e.clearCompression.Sigma = e.Sigma := rfl
@[simp] theorem Engine.clearCompression_pend (e : Engine) : e.clearCompression.pend = e.pend := rfl
@[simp] theorem Engine.clearCompression_KW (e : Engine) : e.clearCompression.KW = e.KW := rfl
@[simp] theorem Engine.clearCompression_RK (e : Engine) : e.clearCompression.RK = e.RK := rfl
@[simp] theorem Engine.clearCompression_ctr (e : Engine) : e.clearCompression.ctr = e.ctr := rfl
@[simp] theorem Engine.clearCompression_CB (e : Engine) : e.clearCompression.CB = e.CB := rfl
@[simp] theorem Engine.clearCompression_KS (e : Engine) : e.clearCompression.KS = e.KS := rfl
@[simp] theorem Engine.clearCompression_n1 (e : Engine) : e.clearCompression.n1 = e.n1 := rfl
@[simp] theorem Engine.clearCompression_n2 (e : Engine) : e.clearCompression.n2 = e.n2 := rfl
@[simp] theorem Engine.clearCompression_hs (e : Engine) : e.clearCompression.hs = zero512 := rfl
@[simp] theorem Engine.clearCompression_Ki (e : Engine) : e.clearCompression.Ki = zero512 := rfl
@[simp] theorem Engine.clearCompression_st (e : Engine) : e.clearCompression.st = zero512 := rfl
@[simp] theorem Engine.clearCompression_m (e : Engine) : e.clearCompression.m = e.m := rfl

/-! ### clearPadded -/

@[simp] theorem Engine.clearPadded_h (e : Engine) : e.clearPadded.h = e.h := rfl
@[simp] theorem Engine.clearPadded_N (e : Engine) : e.clearPadded.N = e.N := rfl
@[simp] theorem Engine.clearPadded_Sigma (e : Engine) : e.clearPadded.Sigma = e.Sigma := rfl
@[simp] theorem Engine.clearPadded_pend (e : Engine) : e.clearPadded.pend = e.pend := rfl
@[simp] theorem Engine.clearPadded_KW (e : Engine) : e.clearPadded.KW = e.KW := rfl
@[simp] theorem Engine.clearPadded_RK (e : Engine) : e.clearPadded.RK = e.RK := rfl
@[simp] theorem Engine.clearPadded_ctr (e : Engine) : e.clearPadded.ctr = e.ctr := rfl
@[simp] theorem Engine.clearPadded_CB (e : Engine) : e.clearPadded.CB = e.CB := rfl
@[simp] theorem Engine.clearPadded_KS (e : Engine) : e.clearPadded.KS = e.KS := rfl
@[simp] theorem Engine.clearPadded_n1 (e : Engine) : e.clearPadded.n1 = e.n1 := rfl
@[simp] theorem Engine.clearPadded_n2 (e : Engine) : e.clearPadded.n2 = e.n2 := rfl
@[simp] theorem Engine.clearPadded_hs (e : Engine) : e.clearPadded.hs = e.hs := rfl
@[simp] theorem Engine.clearPadded_Ki (e : Engine) : e.clearPadded.Ki = e.Ki := rfl
@[simp] theorem Engine.clearPadded_st (e : Engine) : e.clearPadded.st = e.st := rfl
@[simp] theorem Engine.clearPadded_m (e : Engine) : e.clearPadded.m = zero512 := rfl

/-! ### clearSchedule -/

@[simp] theorem Engine.clearSchedule_h (e : Engine) : e.clearSchedule.h = e.h := rfl
@[simp] theorem Engine.clearSchedule_N (e : Engine) : e.clearSchedule.N = e.N := rfl
@[simp] theorem Engine.clearSchedule_Sigma (e : Engine) : e.clearSchedule.Sigma = e.Sigma := rfl
@[simp] theorem Engine.clearSchedule_pend (e : Engine) : e.clearSchedule.pend = e.pend := rfl
@[simp] theorem Engine.clearSchedule_KW (e : Engine) : e.clearSchedule.KW = Vector.replicate 8 0 := rfl
@[simp] theorem Engine.clearSchedule_RK (e : Engine) : e.clearSchedule.RK = Vector.replicate 32 0 := rfl
@[simp] theorem Engine.clearSchedule_ctr (e : Engine) : e.clearSchedule.ctr = e.ctr := rfl
@[simp] theorem Engine.clearSchedule_CB (e : Engine) : e.clearSchedule.CB = e.CB := rfl
@[simp] theorem Engine.clearSchedule_KS (e : Engine) : e.clearSchedule.KS = e.KS := rfl
@[simp] theorem Engine.clearSchedule_n1 (e : Engine) : e.clearSchedule.n1 = e.n1 := rfl
@[simp] theorem Engine.clearSchedule_n2 (e : Engine) : e.clearSchedule.n2 = e.n2 := rfl
@[simp] theorem Engine.clearSchedule_hs (e : Engine) : e.clearSchedule.hs = e.hs := rfl
@[simp] theorem Engine.clearSchedule_Ki (e : Engine) : e.clearSchedule.Ki = e.Ki := rfl
@[simp] theorem Engine.clearSchedule_st (e : Engine) : e.clearSchedule.st = e.st := rfl
@[simp] theorem Engine.clearSchedule_m (e : Engine) : e.clearSchedule.m = e.m := rfl

/-! ### clearHalves -/

@[simp] theorem Engine.clearHalves_h (e : Engine) : e.clearHalves.h = e.h := rfl
@[simp] theorem Engine.clearHalves_N (e : Engine) : e.clearHalves.N = e.N := rfl
@[simp] theorem Engine.clearHalves_Sigma (e : Engine) : e.clearHalves.Sigma = e.Sigma := rfl
@[simp] theorem Engine.clearHalves_pend (e : Engine) : e.clearHalves.pend = e.pend := rfl
@[simp] theorem Engine.clearHalves_KW (e : Engine) : e.clearHalves.KW = e.KW := rfl
@[simp] theorem Engine.clearHalves_RK (e : Engine) : e.clearHalves.RK = e.RK := rfl
@[simp] theorem Engine.clearHalves_ctr (e : Engine) : e.clearHalves.ctr = e.ctr := rfl
@[simp] theorem Engine.clearHalves_CB (e : Engine) : e.clearHalves.CB = e.CB := rfl
@[simp] theorem Engine.clearHalves_KS (e : Engine) : e.clearHalves.KS = e.KS := rfl
@[simp] theorem Engine.clearHalves_n1 (e : Engine) : e.clearHalves.n1 = 0 := rfl
@[simp] theorem Engine.clearHalves_n2 (e : Engine) : e.clearHalves.n2 = 0 := rfl
@[simp] theorem Engine.clearHalves_hs (e : Engine) : e.clearHalves.hs = e.hs := rfl
@[simp] theorem Engine.clearHalves_Ki (e : Engine) : e.clearHalves.Ki = e.Ki := rfl
@[simp] theorem Engine.clearHalves_st (e : Engine) : e.clearHalves.st = e.st := rfl
@[simp] theorem Engine.clearHalves_m (e : Engine) : e.clearHalves.m = e.m := rfl

/-! ### clearCounter -/

@[simp] theorem Engine.clearCounter_h (e : Engine) : e.clearCounter.h = e.h := rfl
@[simp] theorem Engine.clearCounter_N (e : Engine) : e.clearCounter.N = e.N := rfl
@[simp] theorem Engine.clearCounter_Sigma (e : Engine) : e.clearCounter.Sigma = e.Sigma := rfl
@[simp] theorem Engine.clearCounter_pend (e : Engine) : e.clearCounter.pend = e.pend := rfl
@[simp] theorem Engine.clearCounter_KW (e : Engine) : e.clearCounter.KW = e.KW := rfl
@[simp] theorem Engine.clearCounter_RK (e : Engine) : e.clearCounter.RK = e.RK := rfl
@[simp] theorem Engine.clearCounter_ctr (e : Engine) : e.clearCounter.ctr = 0 := rfl
@[simp] theorem Engine.clearCounter_CB (e : Engine) : e.clearCounter.CB = 0 := rfl
@[simp] theorem Engine.clearCounter_KS (e : Engine) : e.clearCounter.KS = 0 := rfl
@[simp] theorem Engine.clearCounter_n1 (e : Engine) : e.clearCounter.n1 = e.n1 := rfl
@[simp] theorem Engine.clearCounter_n2 (e : Engine) : e.clearCounter.n2 = e.n2 := rfl
@[simp] theorem Engine.clearCounter_hs (e : Engine) : e.clearCounter.hs = e.hs := rfl
@[simp] theorem Engine.clearCounter_Ki (e : Engine) : e.clearCounter.Ki = e.Ki := rfl
@[simp] theorem Engine.clearCounter_st (e : Engine) : e.clearCounter.st = e.st := rfl
@[simp] theorem Engine.clearCounter_m (e : Engine) : e.clearCounter.m = e.m := rfl

/-! ### State.respond -/

@[simp] theorem State.respond_maxLen (r : Response) (s : State) : (s.respond r).maxLen = s.maxLen := rfl
@[simp] theorem State.respond_before (r : Response) (s : State) : (s.respond r).before = s.before := rfl
@[simp] theorem State.respond_eng (r : Response) (s : State) : (s.respond r).eng = s.eng := rfl
@[simp] theorem State.respond_after (r : Response) (s : State) : (s.respond r).after = s.after := rfl
@[simp] theorem State.respond_cmds (r : Response) (s : State) : (s.respond r).cmds = s.cmds := rfl
@[simp] theorem State.respond_resps (r : Response) (s : State) :
    (s.respond r).resps = s.resps ++ [⟨s.number, r⟩] := rfl

/-! ### State.reset -/

@[simp] theorem State.reset_maxLen : State.reset.maxLen = none := rfl
@[simp] theorem State.reset_before : State.reset.before = [] := rfl
@[simp] theorem State.reset_eng : State.reset.eng = Engine.reset := rfl
@[simp] theorem State.reset_after : State.reset.after = [] := rfl
@[simp] theorem State.reset_cmds : State.reset.cmds = [] := rfl
@[simp] theorem State.reset_resps : State.reset.resps = [] := rfl

end Sys2Proof.Machine
end

