-- ==== Sys2Proof/Laws/Cipher.lean ====
section
/-! SUPPORT. What the cipher path's shared operations do: the schedule, the block core on the engine, the keystream. -/

namespace Sys2Proof.Machine

namespace Cipher

theorem length_schedule {kw : List W32} (h : kw.length = 8) : (schedule kw).length = 32 := by
  simp [schedule, h]

theorem length_keyWords {key : Bytes} (h : key.length = 32) : (keyWords key).length = 8 := by
  simp [keyWords, h]

end Cipher

/-- The key expansion writes `KW` and `RK` (43_cipher_block.md rules R116, R117). -/
theorem Engine.expandKey_eq (e : Engine) (key : Bytes) :
    e.expandKey key = { e with
      KW := wordFile 8 (Cipher.keyWords key),
      RK := wordFile 32 (Cipher.schedule (wordFile 8 (Cipher.keyWords key)).toList) } := rfl

/-- The schedule that a 32-byte key leaves in `RK` (43_cipher_block.md rule R117). -/
theorem Engine.expandKey_RK (e : Engine) {key : Bytes} (h : key.length = 32) :
    (e.expandKey key).RK.toList = Cipher.schedule (Cipher.keyWords key) := by
  rw [Engine.expandKey_eq]
  show (wordFile 32 _).toList = _
  rw [toList_wordFile (Cipher.length_keyWords h), toList_wordFile (Cipher.length_schedule (Cipher.length_keyWords h))]

/-- The block core writes the two halves (43_cipher_block.md rule R122). -/
theorem Engine.encrypt_eq (e : Engine) (block : W64) :
    e.encrypt block = { e with
      n1 := (Cipher.rounds e.RK.toList (firstHalf block, secondHalf block)).1,
      n2 := (Cipher.rounds e.RK.toList (firstHalf block, secondHalf block)).2 } := rfl

/-- The block that the core leaves in the halves (43_cipher_block.md rule R122). -/
theorem Engine.encrypt_blockOut (e : Engine) (block : W64) :
    (e.encrypt block).blockOut = Cipher.encryptBlock e.RK.toList block := rfl

/-- One keystream block: `CB`, `KS`, `ctr` and the halves are written (44_counter_mode.md rule R130). -/
theorem Engine.nextKeystream_eq (e : Engine) :
    e.nextKeystream = { e with
      CB := e.ctr, KS := Cipher.encryptBlock e.RK.toList e.ctr, ctr := e.ctr + 1,
      n1 := (Cipher.rounds e.RK.toList (firstHalf e.ctr, secondHalf e.ctr)).1,
      n2 := (Cipher.rounds e.RK.toList (firstHalf e.ctr, secondHalf e.ctr)).2 } := rfl

/-- The stream writes cipher scratch only, and leaves the schedule (44_counter_mode.md rule R130; 10_state.md rule R23). -/
theorem Engine.stream_frame (n : Nat) (data : Bytes) (e : Engine) :
    ∃ ctr CB KS n1 n2, (Engine.stream n data e).1 = { e with ctr := ctr, CB := CB, KS := KS, n1 := n1, n2 := n2 } := by
  induction n generalizing data e with
  | zero => exact ⟨e.ctr, e.CB, e.KS, e.n1, e.n2, rfl⟩
  | succ n ih =>
    obtain ⟨c, cb, ks, a, b, h⟩ := ih (data.drop 8) e.nextKeystream
    refine ⟨c, cb, ks, a, b, ?_⟩
    show (Engine.stream n (data.drop 8) e.nextKeystream).1 = _
    rw [h, Engine.nextKeystream_eq]

/-- The bytes of a stream: each data byte meets its keystream byte (44_counter_mode.md rule R132). -/
theorem Engine.stream_bytes (n : Nat) (data : Bytes) (e : Engine) (h : data.length ≤ 8 * n) :
    (Engine.stream n data e).2 = (List.range data.length).map (fun p =>
      data.getD p 0 ^^^ (bytes64 (Cipher.encryptBlock e.RK.toList (e.ctr + BitVec.ofNat 64 (p / 8)))).getD (p % 8) 0) := by
  induction n generalizing data e with
  | zero =>
    obtain rfl : data = [] := List.length_eq_zero_iff.mp (by omega)
    rfl
  | succ n ih =>
    show List.zipWith (· ^^^ ·) (data.take 8) (bytes64 e.nextKeystream.KS) ++
      (Engine.stream n (data.drop 8) e.nextKeystream).2 = _
    rw [ih _ _ (by simp only [List.length_drop]; omega), Engine.nextKeystream_eq]
    apply List.ext_getElem
    · simp only [List.length_append, List.length_zipWith, List.length_take, length_bytes64, List.length_map,
        List.length_range, List.length_drop]
      omega
    · intro p h1 h2
      have hp : p < data.length := by simpa using h2
      rw [List.getElem_append]
      split
      · rename_i hlt
        simp only [List.length_zipWith, List.length_take, length_bytes64] at hlt
        have hp8 : p < 8 := by omega
        simp only [List.getElem_zipWith, List.getElem_take, List.getElem_map, List.getElem_range]
        rw [Nat.div_eq_of_lt hp8, Nat.mod_eq_of_lt hp8, List.getD_eq_getElem?_getD, List.getD_eq_getElem?_getD,
          List.getElem?_eq_getElem hp, List.getElem?_eq_getElem (by simpa using hp8)]
        simp
      · rename_i hge
        simp only [List.length_zipWith, List.length_take, length_bytes64] at hge
        have hp8 : 8 ≤ p := by omega
        have hm : min (min 8 data.length) 8 = 8 := by omega
        simp only [List.getElem_map, List.getElem_range, List.length_zipWith, List.length_take, length_bytes64, hm]
        rw [List.getD_eq_getElem?_getD, List.getD_eq_getElem?_getD, List.getD_eq_getElem?_getD,
          List.getD_eq_getElem?_getD, List.getElem?_drop]
        have e1 : 8 + (p - 8) = p := by omega
        have e2 : (p - 8) % 8 = p % 8 := by omega
        have e3 : e.ctr + 1 + BitVec.ofNat 64 ((p - 8) / 8) = e.ctr + BitVec.ofNat 64 (p / 8) := by
          have : p / 8 = 1 + (p - 8) / 8 := by omega
          rw [this, BitVec.ofNat_add, BitVec.add_assoc]
          rfl
        rw [e1, e2, e3]

end Sys2Proof.Machine
end

