-- ==== Sys2Proof/Laws/Decode.lean ====
section
/-! SUPPORT. The field readers of the decoder and the field writers of the encoder, each pair said once in both directions
(30_encoding.md rule R51). -/

namespace Sys2Proof

open Sys2Proof.Machine

theorem takeBytes_append (s r : Bytes) : takeBytes s.length (s ++ r) = .ok (s, r) := by
  unfold takeBytes
  rw [if_neg (by simp), List.take_left, List.drop_left]

theorem takeBytes_append_of_length {n : Nat} {s : Bytes} (h : s.length = n) (r : Bytes) :
    takeBytes n (s ++ r) = .ok (s, r) := by
  subst h; exact takeBytes_append s r

theorem takeBytes_eq_ok {n : Nat} {f s r : Bytes} (h : takeBytes n f = .ok (s, r)) : f = s ++ r ∧ s.length = n := by
  unfold takeBytes at h
  split at h
  · cases h
  · cases h
    refine ⟨(List.take_append_drop n f).symm, ?_⟩
    rw [List.length_take]; omega

@[simp] theorem length_lenField (n : Nat) : (lenField n).length = 8 := length_unpack _ _ _

theorem readLen_lenField {n : Nat} (h : n < 2 ^ 64) (r : Bytes) : readLen (lenField n ++ r) = .ok (n, r) := by
  unfold readLen
  rw [takeBytes_append_of_length (length_lenField n)]
  simp only [lenField, pack_unpack]
  rw [Nat.mod_eq_of_lt h]

theorem readLen_eq_ok {f r : Bytes} {n : Nat} (h : readLen f = .ok (n, r)) : f = lenField n ++ r ∧ n < 2 ^ 64 := by
  unfold readLen at h
  split at h
  · cases h
  · rename_i b rest hb
    cases h
    obtain ⟨rfl, hl⟩ := takeBytes_eq_ok hb
    constructor
    · rw [lenField, unpack_eq_of_length hl]
    · have := pack_lt b
      rwa [hl] at this

theorem readW64_bytes64 (x : W64) (r : Bytes) : readW64 (bytes64 x ++ r) = .ok (x, r) := by
  unfold readW64
  rw [takeBytes_append_of_length (length_bytes64 x)]
  simp only [be64_bytes64]

theorem readW64_eq_ok {f r : Bytes} {x : W64} (h : readW64 f = .ok (x, r)) : f = bytes64 x ++ r := by
  unfold readW64 at h
  split at h
  · cases h
  · rename_i b rest hb
    cases h
    obtain ⟨rfl, hl⟩ := takeBytes_eq_ok hb
    rw [bytes64_be64 hl]

theorem readBytes_bytesField {ml : Option Nat} {x : Bytes} (h : BytesFit ml x.length) (r : Bytes) :
    readBytes ml (bytesField x ++ r) = .ok (x, r) := by
  unfold readBytes bytesField
  rw [List.append_assoc, readLen_lenField h.1]
  simp only []
  rw [if_pos h.2, takeBytes_append]

theorem readBytes_eq_ok {ml : Option Nat} {f x r : Bytes} (h : readBytes ml f = .ok (x, r)) :
    f = bytesField x ++ r ∧ BytesFit ml x.length := by
  unfold readBytes at h
  split at h
  · cases h
  · rename_i n rest hn
    obtain ⟨rfl, hlt⟩ := readLen_eq_ok hn
    split at h
    · rename_i hm
      obtain ⟨rfl, hl⟩ := takeBytes_eq_ok h
      subst hl
      exact ⟨by simp [bytesField], hlt, hm⟩
    · cases h

theorem readWords_wordsField {ml : Option Nat} {ws : List W32} (h : WordsFit ml ws.length) (r : Bytes) :
    readWords ml (wordsField ws ++ r) = .ok (ws, r) := by
  unfold readWords wordsField
  rw [List.append_assoc, readLen_lenField h.1]
  simp only []
  rw [if_pos h.2, takeBytes_append_of_length (length_ofWords ws)]
  simp only [toWords_ofWords]

theorem readWords_eq_ok {ml : Option Nat} {f r : Bytes} {ws : List W32} (h : readWords ml f = .ok (ws, r)) :
    f = wordsField ws ++ r ∧ WordsFit ml ws.length := by
  unfold readWords at h
  split at h
  · cases h
  · rename_i c rest hc
    obtain ⟨rfl, hlt⟩ := readLen_eq_ok hc
    split at h
    · rename_i hm
      split at h
      · cases h
      · rename_i b rest' hb
        cases h
        obtain ⟨rfl, hl⟩ := takeBytes_eq_ok hb
        have hw : (toWords b).length = c := by rw [length_toWords, hl]; omega
        rw [wordsField, hw, ofWords_toWords ⟨c, hl⟩, List.append_assoc]
        exact ⟨rfl, hlt, hm⟩
    · cases h

end Sys2Proof
end

