-- ==== Sys2Proof/Laws/Hash.lean ====
section
/-! SUPPORT. What the hash path's functions and shared operations do: the transforms byte by byte and lane by lane, one
compression, one byte absorbed, the end of a message. -/

namespace Sys2Proof.Machine

/-! ### The transforms -/

namespace Hash

theorem byteOf_X (a b : V512) (i : Nat) : byteOf (X a b) i = byteOf a i ^^^ byteOf b i := by
  apply BitVec.eq_of_getLsbD_eq
  intro j _
  simp only [byteOf, X, BitVec.getLsbD_extractLsb', BitVec.getLsbD_xor, Bool.and_xor_distrib_left]

theorem laneOf_X (a b : V512) (w : Nat) : laneOf (X a b) w = laneOf a w ^^^ laneOf b w := by
  apply BitVec.eq_of_getLsbD_eq
  intro j _
  simp only [laneOf, X, BitVec.getLsbD_extractLsb', BitVec.getLsbD_xor, Bool.and_xor_distrib_left]

theorem byteOf_S (V : V512) {i : Nat} (hi : i < 64) : byteOf (S V) i = PI (byteOf V i) := by
  rw [S, byteOf_ofBytes (by simp) hi, List.getElem_map, getElem_bytes512]

theorem byteOf_P (V : V512) {i : Nat} (hi : i < 64) : byteOf (P V) i = byteOf V (TAU i) := by
  rw [P, byteOf_ofBytes (by simp) hi, List.getElem_map, List.getElem_range]

theorem laneOf_L (V : V512) {w : Nat} (hw : w < 8) : laneOf (L V) w = l64 (laneOf V w) := by
  rw [L, laneOf_ofLanes (by simp) hw, List.getElem_map, getElem_lanes512]

theorem rowSum_xor (x y : W64) (i : Nat) (rows : List W64) :
    rowSum (x ^^^ y) i rows = rowSum x i rows ^^^ rowSum y i rows := by
  induction rows generalizing i with
  | nil => simp [rowSum]
  | cons row rows ih =>
    simp only [rowSum, ih, BitVec.getLsbD_xor]
    have hif : (if (x.getLsbD (63 - i) ^^ y.getLsbD (63 - i)) = true then row else (0 : W64)) =
        (if x.getLsbD (63 - i) = true then row else 0) ^^^ (if y.getLsbD (63 - i) = true then row else 0) := by
      cases x.getLsbD (63 - i) <;> cases y.getLsbD (63 - i) <;> simp
    rw [hif]
    ac_rfl

/-- Counting a block in does not change `N` modulo 512 (10_state.md rule R12). -/
theorem ADD512I_block_mod (N : V512) : (ADD512I N 512).toNat % 512 = N.toNat % 512 := by
  have hd : 512 ∣ 2 ^ 512 := Nat.dvd_trans (⟨1, rfl⟩ : 512 ∣ 2 ^ 9) (Nat.pow_dvd_pow 2 (by decide))
  rw [ADD512I, BitVec.toNat_add, Nat.mod_mod_of_dvd _ hd, BitVec.toNat_ofNat, Nat.add_mod, Nat.mod_mod_of_dvd _ hd,
    Nat.mod_self, Nat.add_zero, Nat.mod_mod]

end Hash

/-! ### One compression -/

/-- A compression writes `h` and zeroes the scratch it used; nothing else changes (41_hash_compression.md rule R91;
10_state.md rule R24). -/
theorem Engine.compress_eq (e : Engine) (n m : V512) :
    e.compress n m = { e with h := Hash.G e.h n m, hs := zero512, Ki := zero512, st := zero512 } := (rfl)

theorem Engine.absorbBlock_eq (e : Engine) :
    e.absorbBlock = { e with
      h := Hash.G e.h e.N e.window, N := Hash.ADD512I e.N 512, Sigma := Hash.ADD512 e.Sigma e.window, pend := [],
      hs := zero512, Ki := zero512, st := zero512 } := by
  simp only [Engine.absorbBlock, Engine.compress_eq]

@[simp] theorem Engine.absorbBlock_h (e : Engine) : e.absorbBlock.h = Hash.G e.h e.N e.window := by
  rw [Engine.absorbBlock_eq]

@[simp] theorem Engine.absorbBlock_N (e : Engine) : e.absorbBlock.N = Hash.ADD512I e.N 512 := by
  rw [Engine.absorbBlock_eq]

@[simp] theorem Engine.absorbBlock_Sigma (e : Engine) : e.absorbBlock.Sigma = Hash.ADD512 e.Sigma e.window := by
  rw [Engine.absorbBlock_eq]

@[simp] theorem Engine.absorbBlock_pend (e : Engine) : e.absorbBlock.pend = [] := by
  rw [Engine.absorbBlock_eq]

@[simp] theorem Engine.absorbBlock_hs (e : Engine) : e.absorbBlock.hs = zero512 := by
  rw [Engine.absorbBlock_eq]

@[simp] theorem Engine.absorbBlock_Ki (e : Engine) : e.absorbBlock.Ki = zero512 := by
  rw [Engine.absorbBlock_eq]

@[simp] theorem Engine.absorbBlock_st (e : Engine) : e.absorbBlock.st = zero512 := by
  rw [Engine.absorbBlock_eq]

/-- A byte that does not fill the window is held (42_hash_engine.md rule R102). -/
theorem Engine.absorbByte_of_ne (e : Engine) (b : Byte) (hf : e.pend.length + 1 ≠ 64) :
    e.absorbByte b = { e with pend := e.pend ++ [b] } := by
  have : ¬ (e.pend ++ [b]).length = 64 := by simpa using hf
  exact if_neg this

/-- The byte that fills the window compresses it (42_hash_engine.md rule R102). -/
theorem Engine.absorbByte_of_eq (e : Engine) (b : Byte) (hf : e.pend.length + 1 = 64) :
    e.absorbByte b = Engine.absorbBlock { e with pend := e.pend ++ [b] } := by
  have : (e.pend ++ [b]).length = 64 := by simpa using hf
  exact if_pos this

@[simp] theorem Engine.absorb_nil (e : Engine) : e.absorb [] = e := rfl

@[simp] theorem Engine.absorb_cons (e : Engine) (b : Byte) (bs : Bytes) :
    e.absorb (b :: bs) = (e.absorbByte b).absorb bs := rfl

theorem Engine.absorb_append (e : Engine) (a b : Bytes) : e.absorb (a ++ b) = (e.absorb a).absorb b :=
  List.foldl_append

/-- Bytes that leave the window unfilled are held (42_hash_engine.md rule R102). -/
theorem Engine.absorb_of_lt (e : Engine) (bs : Bytes) (hf : e.pend.length + bs.length < 64) :
    e.absorb bs = { e with pend := e.pend ++ bs } := by
  induction bs generalizing e with
  | nil => simp
  | cons b bs ih =>
    simp only [List.length_cons] at hf
    rw [Engine.absorb_cons, Engine.absorbByte_of_ne _ _ (by omega), ih _ (by simp; omega)]
    simp

/-- Bytes that fill the window exactly are compressed with those pending (42_hash_engine.md rule R102). -/
theorem Engine.absorb_of_eq (e : Engine) (bs : Bytes) (hne : bs ≠ []) (hf : e.pend.length + bs.length = 64) :
    e.absorb bs = Engine.absorbBlock { e with pend := e.pend ++ bs } := by
  obtain ⟨init, b, rfl⟩ := List.eq_nil_or_concat bs |>.resolve_left hne
  simp only [List.concat_eq_append] at hf ⊢
  simp only [List.length_append, List.length_singleton] at hf
  rw [Engine.absorb_append, Engine.absorb_of_lt e init (by omega), Engine.absorb_cons, Engine.absorb_nil,
    Engine.absorbByte_of_eq _ _ (by simp; omega), List.append_assoc]

/-- `H_FINAL`'s compressions as one update of the engine (42_hash_engine.md rule R103). -/
theorem Engine.finish_eq (e : Engine) :
    e.finish =
      { e with
        h := Hash.G (Hash.G (Hash.G e.h e.N (Hash.paddedBlock e.pend)) zero512 (Hash.ADD512I e.N (8 * e.pend.length)))
          zero512 (Hash.ADD512 e.Sigma (Hash.paddedBlock e.pend)),
        N := Hash.ADD512I e.N (8 * e.pend.length), Sigma := Hash.ADD512 e.Sigma (Hash.paddedBlock e.pend),
        hs := zero512, Ki := zero512, st := zero512, m := Hash.paddedBlock e.pend } := by
  simp only [Engine.finish, Engine.compress_eq, Engine.fill]

/-- What absorbing leaves alone: the cipher scratch and the padded block (10_state.md rules R10, R23). -/
theorem Engine.absorb_frame (e : Engine) (bs : Bytes) :
    (e.absorb bs).KW = e.KW ∧ (e.absorb bs).RK = e.RK ∧ (e.absorb bs).ctr = e.ctr ∧ (e.absorb bs).CB = e.CB ∧
      (e.absorb bs).KS = e.KS ∧ (e.absorb bs).n1 = e.n1 ∧ (e.absorb bs).n2 = e.n2 ∧ (e.absorb bs).m = e.m := by
  induction bs generalizing e with
  | nil => simp
  | cons b bs ih =>
    obtain ⟨h1, h2, h3, h4, h5, h6, h7, h8⟩ := ih (e.absorbByte b)
    rw [Engine.absorb_cons, h1, h2, h3, h4, h5, h6, h7, h8]
    by_cases hf : e.pend.length + 1 = 64
    · rw [Engine.absorbByte_of_eq _ _ hf, Engine.absorbBlock_eq]
      exact ⟨rfl, rfl, rfl, rfl, rfl, rfl, rfl, rfl⟩
    · rw [Engine.absorbByte_of_ne _ _ hf]
      exact ⟨rfl, rfl, rfl, rfl, rfl, rfl, rfl, rfl⟩

end Sys2Proof.Machine
end

