-- ==== Sys2Proof/Laws/Ops.lean ====
section
/-! SUPPORT. What the shared operations can do: ending an operation, addressing an engine, taking a command. -/

namespace Sys2Proof.Machine

theorem State.complete_eq_next (s : State) (e : Engine) (r : Bytes) (t : State) :
    s.complete e r = .next t ↔ t = { s with eng := e, resps := s.resps ++ [⟨s.number, .ok r⟩] } := by
  unfold State.complete State.respond
  constructor
  · intro h; cases h; rfl
  · rintro rfl; rfl

theorem State.raise_eq_next (s : State) (k : ErrorKind) (t : State) :
    s.raise k = .next t ↔ t = { s with resps := s.resps ++ [⟨s.number, .err k⟩] } := by
  unfold State.raise State.respond
  constructor
  · intro h; cases h; rfl
  · rintro rfl; rfl

/-- Addressing an engine changes which engine is addressed and nothing else (60_exceptions.md rule R168). -/
theorem State.address_eq_some {k : Nat} {s s' : State} (h : s.address k = some s') :
    s'.number = k ∧ s.engines[k]? = some s'.eng ∧ s'.engines = s.engines ∧ s'.before = s.engines.take k ∧
      s'.after = s.engines.drop (k + 1) ∧ s'.maxLen = s.maxLen ∧ s'.cmds = s.cmds ∧ s'.resps = s.resps := by
  unfold State.address at h
  split at h
  · cases h
  · rename_i e rest hd
    cases h
    have hk : k < s.engines.length := by
      by_contra hc
      rw [List.drop_eq_nil_of_le (by omega)] at hd
      cases hd
    have hc := List.drop_eq_getElem_cons hk
    rw [hd] at hc
    injection hc with he hr
    refine ⟨?_, ?_, ?_, rfl, hr, rfl, rfl, rfl⟩
    · simp only [State.number, List.length_take]; omega
    · rw [List.getElem?_eq_getElem hk, ← he]
    · show s.engines.take k ++ e :: rest = s.engines
      rw [← hd, List.take_append_drop]

/-- Every engine that exists can be addressed. -/
theorem State.address_isSome {k : Nat} {s : State} (h : k < s.engines.length) : ∃ s', s.address k = some s' := by
  unfold State.address
  rw [List.drop_eq_getElem_cons h]
  exact ⟨_, rfl⟩

theorem State.address_eq_none {k : Nat} {s : State} (h : s.engines.length ≤ k) : s.address k = none := by
  unfold State.address
  rw [List.drop_eq_nil_of_le h]

/-- The engine with the addressed one's number is the addressed one. -/
theorem State.engines_number (s : State) : s.engines[s.number]? = some s.eng := by
  simp [State.engines, State.number]

/-- Addressing the addressed engine changes nothing. -/
theorem State.address_self (s : State) : s.address s.number = some s := by
  simp [State.address, State.engines, State.number]

/-- What taking a command can find (30_encoding.md rule R55). -/
theorem fetch_eq_command {s s' : State} {i : Instr} (h : fetch s = .command i s') :
    ∃ c rest a, s.cmds = c :: rest ∧ s.address c.target = some a ∧ decode s.maxLen c.frame = .ok i ∧
      s' = { a with cmds := rest } := by
  unfold fetch at h
  split at h
  · cases h
  · rename_i c rest hc
    split at h
    · cases h
    · rename_i a ha
      split at h
      · cases h
      · rename_i j hj
        cases h
        exact ⟨c, rest, a, hc, ha, hj, rfl⟩

/-- Taking a command that decodes, sent to an engine that exists. -/
theorem fetch_of_command {s a : State} {c : Command} {rest : List Command} {i : Instr} (hc : s.cmds = c :: rest)
    (ha : s.address c.target = some a) (hi : decode s.maxLen c.frame = .ok i) :
    fetch s = .command i { a with cmds := rest } := by
  unfold fetch
  rw [hc]
  simp only [ha, hi]

/-- A step that answers a next state held still or executed the command taken (00_scope.md rule R6). -/
theorem step_cases {s t : State} (h : step s = .next t) :
    (s.cmds = [] ∧ t = s) ∨ ∃ i s', fetch s = .command i s' ∧ exec i s' = .next t := by
  unfold step at h
  split at h
  · rename_i hf
    left
    unfold fetch at hf
    split at hf
    · rename_i hc
      cases h
      exact ⟨hc, rfl⟩
    · split at hf
      · cases hf
      · split at hf <;> cases hf
  · cases h
  · rename_i i s' hf
    exact Or.inr ⟨i, s', hf, h⟩

/-- The engines with the addressed one replaced. -/
theorem State.engines_set (s : State) (e : Engine) : State.engines { s with eng := e } = s.engines.set s.number e := by
  simp [State.engines, State.number]

end Sys2Proof.Machine
end

