-- ==== Sys2Proof/Laws/Exec.lean ====
section
/-! SUPPORT. What an operation can do, said once for all nine: it always answers a next state, in which the addressed engine
and one response are all that is new. -/

namespace Sys2Proof.Machine

/-- Every operation ends with one response, and touches only the addressed engine (30_encoding.md rule R52; 20_memory.md
rule R38). -/
theorem exec_answers (i : Instr) (s : State) :
    ∃ e r, exec i s = .next { s with eng := e, resps := s.resps ++ [⟨s.number, r⟩] } := by
  cases i with
  | hInit => exact ⟨_, _, rfl⟩
  | hUpdate data => exact ⟨_, _, rfl⟩
  | hFinal => exact ⟨_, _, rfl⟩
  | kExpand key =>
    show ∃ e r, execKExpand key s = _
    unfold execKExpand
    split
    · exact ⟨_, _, rfl⟩
    · exact ⟨s.eng, _, rfl⟩
  | bEnc block subkeys =>
    show ∃ e r, execBEnc block subkeys s = _
    unfold execBEnc
    split
    · exact ⟨_, _, rfl⟩
    · exact ⟨s.eng, _, rfl⟩
  | ctrProc data key c =>
    show ∃ e r, execCtrProc data key c s = _
    unfold execCtrProc
    split
    · exact ⟨_, _, rfl⟩
    · exact ⟨s.eng, _, rfl⟩
  | keyHex text =>
    show ∃ e r, execKeyHex text s = _
    unfold execKeyHex
    split
    · exact ⟨_, _, rfl⟩
    · exact ⟨s.eng, _, rfl⟩
  | ctrHex text =>
    show ∃ e r, execCtrHex text s = _
    unfold execCtrHex
    split
    · exact ⟨_, _, rfl⟩
    · exact ⟨s.eng, _, rfl⟩
  | digHex d => exact ⟨_, _, rfl⟩

/-- `exec` as an equation when its answer is known. -/
theorem exec_next_shape {i : Instr} {s t : State} (h : exec i s = .next t) :
    ∃ e r, t = { s with eng := e, resps := s.resps ++ [⟨s.number, r⟩] } := by
  obtain ⟨e, r, he⟩ := exec_answers i s
  rw [he] at h
  cases h
  exact ⟨e, r, rfl⟩

/-! ### The answer of each operation -/

theorem exec_hInit (s : State) : exec .hInit s = s.complete s.eng.clearContext [] := rfl

theorem exec_hUpdate (data : Bytes) (s : State) : exec (.hUpdate data) s = s.complete (s.eng.absorb data) [] := rfl

theorem exec_hFinal (s : State) :
    exec .hFinal s = s.complete s.eng.finish.clearContext.clearPadded (bytes512 s.eng.finish.h).reverse := rfl

theorem exec_kExpand {key : Bytes} (h : key.length = 32) (s : State) :
    exec (.kExpand key) s =
      s.complete (s.eng.expandKey key).clearSchedule (ofWords (Cipher.schedule (Cipher.keyWords key))) := by
  show execKExpand key s = _
  unfold execKExpand
  rw [if_pos h]
  simp only [Engine.expandKey_RK _ h]

theorem exec_kExpand_error {key : Bytes} (h : key.length ≠ 32) (s : State) :
    exec (.kExpand key) s = s.raise .invalidKeyLength := if_neg h

theorem exec_bEnc {subkeys : List W32} (h : subkeys.length = 32) (block : W64) (s : State) :
    exec (.bEnc block subkeys) s =
      s.complete { s.eng with RK := Vector.replicate 32 0, n1 := 0, n2 := 0 }
        (bytes64 (Cipher.encryptBlock subkeys block)) := by
  show execBEnc block subkeys s = _
  unfold execBEnc
  rw [if_pos h]
  simp only [Engine.encrypt_blockOut, toList_wordFile h]
  rfl

theorem exec_bEnc_error {subkeys : List W32} (h : subkeys.length ≠ 32) (block : W64) (s : State) :
    exec (.bEnc block subkeys) s = s.raise .invalidRoundKeyCount := if_neg h

theorem exec_ctrProc {key : Bytes} (h : key.length = 32) (data : Bytes) (c : W64) (s : State) :
    exec (.ctrProc data key c) s =
      s.complete ((s.eng.clearSchedule).clearHalves).clearCounter
        ((List.range data.length).map (fun p => data.getD p 0 ^^^ Cipher.keystreamByte key c p)) := by
  show execCtrProc data key c s = _
  unfold execCtrProc
  rw [if_pos h]
  simp only []
  rw [Engine.stream_bytes _ _ _ (by unfold blockCount; omega)]
  obtain ⟨c', cb, ks, a, b, hf⟩ := Engine.stream_frame (blockCount data.length) data
    { s.eng.expandKey key with ctr := c }
  rw [hf]
  have hrk : (s.eng.expandKey key).RK.toList = _ := Engine.expandKey_RK s.eng h
  simp only [hrk]
  rfl

theorem exec_ctrProc_error {key : Bytes} (h : key.length ≠ 32) (data : Bytes) (c : W64) (s : State) :
    exec (.ctrProc data key c) s = s.raise .invalidKeyLength := if_neg h

theorem exec_keyHex {text : Bytes} (h : (stripHex text).length = 64) (s : State) :
    exec (.keyHex text) s = s.complete s.eng (pairDigits (stripHex text)) := by
  show execKeyHex text s = _
  unfold execKeyHex
  rw [if_pos h]

theorem exec_keyHex_error {text : Bytes} (h : (stripHex text).length ≠ 64) (s : State) :
    exec (.keyHex text) s = s.raise .invalidHexKey := if_neg h

theorem exec_ctrHex {text : Bytes} (h0 : 0 < (stripHex text).length) (h : (stripHex text).length ≤ 16) (s : State) :
    exec (.ctrHex text) s = s.complete s.eng (bytes64 (digitsValue (stripHex text))) := by
  show execCtrHex text s = _
  unfold execCtrHex
  rw [if_pos ⟨h0, h⟩]

theorem exec_ctrHex_error {text : Bytes} (h : ¬ (0 < (stripHex text).length ∧ (stripHex text).length ≤ 16)) (s : State) :
    exec (.ctrHex text) s = s.raise .invalidCounterFormat := if_neg h

theorem exec_digHex (d : V512) (s : State) : exec (.digHex d) s = s.complete s.eng (hexText (bytes512 d)) := rfl

end Sys2Proof.Machine
end

