-- ==== Sys2Proof/Laws/PerInstr.lean ====
section
/-! SUPPORT. Per-instruction laws. The family FrameShape: the frame of a command has the length that its row of
spec/opcode_table.json gives, and its first byte is the row's opcode (30_encoding.md rules R53, R54). -/

namespace Sys2Proof.Laws.FrameShape

open Sys2Proof.Machine

/-- The length and the first byte of the frame of each command, as the opcode table gives them. -/
def Statement (i : Instr) : Prop :=
  match i with
  | .hInit => (encode i).length = 1 ∧ (encode i).head? = some 0x01
  | .hUpdate data => (encode i).length = 9 + data.length ∧ (encode i).head? = some 0x02
  | .hFinal => (encode i).length = 1 ∧ (encode i).head? = some 0x03
  | .kExpand key => (encode i).length = 9 + key.length ∧ (encode i).head? = some 0x10
  | .bEnc _ subkeys => (encode i).length = 17 + 4 * subkeys.length ∧ (encode i).head? = some 0x11
  | .ctrProc data key _ => (encode i).length = 25 + data.length + key.length ∧ (encode i).head? = some 0x20
  | .keyHex text => (encode i).length = 9 + text.length ∧ (encode i).head? = some 0x30
  | .ctrHex text => (encode i).length = 9 + text.length ∧ (encode i).head? = some 0x31
  | .digHex _ => (encode i).length = 65 ∧ (encode i).head? = some 0x32

theorem length_bytesField (x : Bytes) : (bytesField x).length = 8 + x.length := by
  simp [bytesField]

theorem hInit : Statement .hInit := ⟨rfl, rfl⟩

theorem hUpdate (data : Bytes) : Statement (.hUpdate data) := by
  refine ⟨?_, rfl⟩
  simp only [encode, operandFields, List.length_cons, length_bytesField]; omega

theorem hFinal : Statement .hFinal := ⟨rfl, rfl⟩

theorem kExpand (key : Bytes) : Statement (.kExpand key) := by
  refine ⟨?_, rfl⟩
  simp only [encode, operandFields, List.length_cons, length_bytesField]; omega

theorem bEnc (block : W64) (subkeys : List W32) : Statement (.bEnc block subkeys) := by
  refine ⟨?_, rfl⟩
  simp only [encode, operandFields, wordsField, List.length_cons, List.length_append, length_bytes64, length_lenField,
    length_ofWords]
  omega

theorem ctrProc (data key : Bytes) (initialCounter : W64) : Statement (.ctrProc data key initialCounter) := by
  refine ⟨?_, rfl⟩
  simp only [encode, operandFields, List.length_cons, List.length_append, length_bytesField, length_bytes64]; omega

theorem keyHex (text : Bytes) : Statement (.keyHex text) := by
  refine ⟨?_, rfl⟩
  simp only [encode, operandFields, List.length_cons, length_bytesField]; omega

theorem ctrHex (text : Bytes) : Statement (.ctrHex text) := by
  refine ⟨?_, rfl⟩
  simp only [encode, operandFields, List.length_cons, length_bytesField]; omega

theorem digHex (d : V512) : Statement (.digHex d) := by
  refine ⟨?_, rfl⟩
  simp only [encode, operandFields, List.length_cons, length_bytes512]

end Sys2Proof.Laws.FrameShape
end

