-- ==== Sys2Proof/Laws/Safety.lean ====
section
/-! SUPPORT. What a sequence of operations or of steps does, one element at a time; and that an operation reads and writes the
addressed engine only. -/

namespace Sys2Proof

open Sys2Proof.Machine

@[simp] theorem runSteps_zero (s : State) : runSteps 0 s = .next s := rfl

/-- One step more (00_scope.md rule R6). -/
theorem runSteps_succ {s t : State} (h : step s = .next t) (n : Nat) : runSteps (n + 1) s = runSteps n t := by
  simp only [runSteps, h]

@[simp] theorem runInstrs_nil (s : State) : runInstrs [] s = .next s := rfl

/-- One operation more (30_encoding.md rule R57). -/
theorem runInstrs_cons {i : Instr} {s t : State} (h : exec i s = .next t) (is : List Instr) :
    runInstrs (i :: is) s = runInstrs is t := by
  simp only [runInstrs, h]

/-- What an operation answers is a function of the addressed engine: its new value and the response are the same in every
machine around it (20_memory.md rule R38). -/
theorem exec_local (i : Instr) (e : Engine) :
    ∃ e' r, ∀ s : State, s.eng = e →
      exec i s = .next { s with eng := e', resps := s.resps ++ [⟨s.number, r⟩] } := by
  have answer : ∀ e' r, (∀ s : State, s.eng = e → exec i s = s.complete e' r) →
      ∃ e' r, ∀ s : State, s.eng = e →
        exec i s = .next { s with eng := e', resps := s.resps ++ [⟨s.number, r⟩] } :=
    fun e' r h => ⟨e', .ok r, h⟩
  have error : ∀ k, (∀ s : State, exec i s = s.raise k) →
      ∃ e' r, ∀ s : State, s.eng = e →
        exec i s = .next { s with eng := e', resps := s.resps ++ [⟨s.number, r⟩] } :=
    fun k h => ⟨e, .err k, fun s hs => by rw [h s, ← hs]; rfl⟩
  cases i with
  | hInit => exact answer _ _ fun s h => by rw [exec_hInit, h]
  | hUpdate data => exact answer _ _ fun s h => by rw [exec_hUpdate, h]
  | hFinal => exact answer _ _ fun s h => by rw [exec_hFinal, h]
  | kExpand key =>
    by_cases hk : key.length = 32
    · exact answer _ _ fun s h => by rw [exec_kExpand hk, h]
    · exact error _ fun s => exec_kExpand_error hk s
  | bEnc block subkeys =>
    by_cases hk : subkeys.length = 32
    · exact answer _ _ fun s h => by rw [exec_bEnc hk, h]
    · exact error _ fun s => exec_bEnc_error hk block s
  | ctrProc data key c =>
    by_cases hk : key.length = 32
    · exact answer _ _ fun s h => by rw [exec_ctrProc hk, h]
    · exact error _ fun s => exec_ctrProc_error hk data c s
  | keyHex text =>
    by_cases hk : (stripHex text).length = 64
    · exact answer _ _ fun s h => by rw [exec_keyHex hk, h]
    · exact error _ fun s => exec_keyHex_error hk s
  | ctrHex text =>
    by_cases hk : 0 < (stripHex text).length ∧ (stripHex text).length ≤ 16
    · exact answer _ _ fun s h => by rw [exec_ctrHex hk.1 hk.2, h]
    · exact error _ fun s => exec_ctrHex_error hk s
  | digHex d => exact answer _ _ fun s h => by rw [exec_digHex, h]

/-- Everything a step that takes a command does: the engine it is sent to gets the new value that the operation gives it,
its response is appended, the command is gone, nothing else changes (00_scope.md rule R6; 20_memory.md rule R38). -/
theorem step_command {s t : State} {c : Command} {rest : List Command} (hc : s.cmds = c :: rest) (h : step s = .next t) :
    ∃ i e e' r, decode s.maxLen c.frame = .ok i ∧ s.engines[c.target]? = some e ∧
      t.engines = s.engines.set c.target e' ∧ t.maxLen = s.maxLen ∧ t.cmds = rest ∧
      t.resps = s.resps ++ [⟨c.target, r⟩] ∧
      ∀ u : State, u.eng = e → exec i u = .next { u with eng := e', resps := u.resps ++ [⟨u.number, r⟩] } := by
  rcases step_cases h with ⟨hn, -⟩ | ⟨i, s', hf, he⟩
  · rw [hn] at hc; cases hc
  · obtain ⟨c', rest', a, hc', ha, hd, rfl⟩ := fetch_eq_command hf
    rw [hc] at hc'
    cases hc'
    obtain ⟨hnum, hget, heng, -, -, hml, -, hr⟩ := State.address_eq_some ha
    obtain ⟨e', r, hl⟩ := exec_local i a.eng
    rw [hl { a with cmds := rest } rfl] at he
    cases he
    refine ⟨i, a.eng, e', r, hd, hget, ?_, hml, rfl, ?_, hl⟩
    · rw [← heng, ← hnum]; exact State.engines_set a e'
    · simp only [hr]; rw [← hnum]; rfl

end Sys2Proof
end

