-- ==== Sys2Proof/Tests/Slice0.lean ====
section
/-! SUPPORT. Tests: ill-formed commands are refused, frames written out from the spec decode as the spec says, single operations
answer the spec's own values (95_test_vectors.md), and for each statement with hypotheses a witness that meets them. -/

namespace Sys2Proof.Tests

open Sys2Proof.Machine

/-- The next state of an operation, if it answers one. -/
def next? (i : Instr) (s : State) : Option State :=
  match exec i s with
  | .next t => some t
  | .fault _ => none
  | .refused _ => none

/-- The responses after one operation. -/
def answers (i : Instr) (s : State) : Option (List Reply) := (next? i s).map (fun t => t.resps)

/-- The next state of one step, if it answers one. -/
def stepped (s : State) : Option State :=
  match step s with
  | .next t => some t
  | .fault _ => none
  | .refused _ => none

/-- The name under which one step is refused, if it is. -/
def refusal? (s : State) : Option Refusal :=
  match step s with
  | .next _ => none
  | .fault _ => none
  | .refused r => some r

/-- The example key (95_test_vectors.md section 6). -/
def key : Bytes :=
  [0xff, 0xee, 0xdd, 0xcc, 0xbb, 0xaa, 0x99, 0x88, 0x77, 0x66, 0x55, 0x44, 0x33, 0x22, 0x11, 0x00, 0xf0, 0xf1, 0xf2, 0xf3,
    0xf4, 0xf5, 0xf6, 0xf7, 0xf8, 0xf9, 0xfa, 0xfb, 0xfc, 0xfd, 0xfe, 0xff]

/-- The text `hello, world`. -/
def hello : Bytes := [0x68, 0x65, 0x6c, 0x6c, 0x6f, 0x2c, 0x20, 0x77, 0x6f, 0x72, 0x6c, 0x64]

/-- The reset machine with some bytes pending. -/
def pending (bs : Bytes) : State := { State.reset with eng := { Engine.reset with pend := bs } }

/-- Two engines in reset, and commands for them. -/
def pair (cmds : List Command) : State := { State.resetWith none 1 with cmds := cmds }

/-! ### Ill-formed commands -/

/-- A text of 4 bytes under MAXLEN 3. -/
theorem test_wf_refuses_hUpdate :
    ¬ WellFormed (some 3) (.hUpdate [1, 2, 3, 4]) ∧ WellFormed (some 4) (.hUpdate [1, 2, 3, 4]) := by decide

/-- A key over MAXLEN. -/
theorem test_wf_refuses_kExpand :
    ¬ WellFormed (some 3) (.kExpand [1, 2, 3, 4]) := by decide

/-- Four bytes a word: 8 bytes under MAXLEN 7. -/
theorem test_wf_refuses_bEnc :
    ¬ WellFormed (some 7) (.bEnc 0 [1, 2]) ∧ WellFormed (some 8) (.bEnc 0 [1, 2]) := by decide

/-- Data over MAXLEN. -/
theorem test_wf_refuses_ctrProc_data :
    ¬ WellFormed (some 1) (.ctrProc [1, 2] [1] 0) := by decide

/-- A key over MAXLEN. -/
theorem test_wf_refuses_ctrProc_key :
    ¬ WellFormed (some 1) (.ctrProc [1] [1, 2] 0) := by decide

/-- A text over MAXLEN. -/
theorem test_wf_refuses_keyHex :
    ¬ WellFormed (some 0) (.keyHex [0x30]) := by decide

/-- A text over MAXLEN. -/
theorem test_wf_refuses_ctrHex :
    ¬ WellFormed (some 0) (.ctrHex [0x30]) := by decide

/-- A byte string of 2^64 bytes does not fit a LEN64 field. -/
theorem test_wf_refuses_len64 (x : Bytes) (block c : W64) (hx : x.length = 2 ^ 64) :
    ¬ WellFormed none (.hUpdate x) ∧ ¬ WellFormed none (.kExpand x) ∧ ¬ WellFormed none (.keyHex x) ∧
      ¬ WellFormed none (.ctrHex x) ∧ ¬ WellFormed none (.ctrProc x [] c) ∧ ¬ WellFormed none (.ctrProc [] x c) ∧
      ∀ ws : List W32, ws.length = 2 ^ 64 → ¬ WellFormed none (.bEnc block ws) := by
  have h : ¬ x.length < 2 ^ 64 := by omega
  refine ⟨fun w => h w.1, fun w => h w.1, fun w => h w.1, fun w => h w.1, fun w => h w.1.1, fun w => h w.2.1, ?_⟩
  intro ws hw w
  have := w.1
  omega

/-- Such a byte string exists. -/
theorem test_len64_witness : (List.replicate (2 ^ 64) (0 : Byte)).length = 2 ^ 64 := List.length_replicate

/-! ### Frames (95_test_vectors.md sections 9.1 to 9.3) -/

/-- `H_INIT`, `H_FINAL`: format F0, one byte. -/
theorem test_decode_f0 :
    decode none [0x01] = .ok .hInit ∧ decode none [0x03] = .ok .hFinal ∧ decode none [0x01, 0x00] = .error .tooLong := by decide

/-- `H_UPDATE "abc"`. -/
theorem test_decode_hUpdate :
    decode none [0x02, 0x00, 0x00, 0x00, 0x00, 0x00, 0x00, 0x00, 0x03, 0x61, 0x62, 0x63] = .ok (.hUpdate [0x61, 0x62,
      0x63]) := by decide

/-- `K_EXPAND KEY`: opcode, LEN64 of 0x20, 32 bytes. -/
theorem test_decode_kExpand :
    decode none ([0x10, 0x00, 0x00, 0x00, 0x00, 0x00, 0x00, 0x00, 0x20] ++ key) = .ok (.kExpand key) := by decide

/-- `B_ENC` with two words: the block first, each word big-endian. -/
theorem test_decode_bEnc :
    decode none [0x11, 0xfe, 0xdc, 0xba, 0x98, 0x76, 0x54, 0x32, 0x10, 0x00, 0x00, 0x00, 0x00, 0x00, 0x00, 0x00, 0x02,
      0xff, 0xee, 0xdd, 0xcc, 0x33, 0x22, 0x11, 0x00] = .ok (.bEnc 0xfedcba9876543210 [0xffeeddcc, 0x33221100]) := by decide

/-- `CTR_PROC "hello, world", KEY, 0xffffffffffffffff`: data, key, counter in that order. -/
theorem test_decode_ctrProc :
    decode none ([0x20, 0x00, 0x00, 0x00, 0x00, 0x00, 0x00, 0x00, 0x0c] ++ hello ++ [0x00, 0x00, 0x00, 0x00, 0x00,
      0x00, 0x00, 0x20] ++ key ++ [0xff, 0xff, 0xff, 0xff, 0xff, 0xff, 0xff, 0xfe]) = .ok (.ctrProc hello key
      0xfffffffffffffffe) := by decide

/-- `KEY_HEX "ffeeddcc"`. -/
theorem test_decode_keyHex :
    decode none [0x30, 0x00, 0x00, 0x00, 0x00, 0x00, 0x00, 0x00, 0x08, 0x66, 0x66, 0x65, 0x65, 0x64, 0x64, 0x63, 0x63]
      = .ok (.keyHex [0x66, 0x66, 0x65, 0x65, 0x64, 0x64, 0x63, 0x63]) := by decide

/-- `CTR_HEX "zz"`. -/
theorem test_decode_ctrHex :
    decode none [0x31, 0x00, 0x00, 0x00, 0x00, 0x00, 0x00, 0x00, 0x02, 0x7a, 0x7a] = .ok (.ctrHex [0x7a, 0x7a]) := by decide

/-- `DIG_HEX` of the bytes 00 to 3f: byte 0 is the most significant; 63 bytes are too few. -/
theorem test_decode_digHex :
    decode none (0x32 :: (List.range 64).map (BitVec.ofNat 8)) = .ok (.digHex
      0x000102030405060708090a0b0c0d0e0f101112131415161718191a1b1c1d1e1f202122232425262728292a2b2c2d2e2f303132333435363738393a3b3c3d3e3f)
      ∧ decode none (0x32 :: List.replicate 63 0) = .error .tooShort := by decide +kernel

/-- Frames that decode to no operation: reserved opcodes, a 4-byte length, no counter, a length over MAXLEN. -/
theorem test_decode_refuses :
    decode none [0x12, 0xfe, 0xdc, 0xba, 0x98, 0x76, 0x54, 0x32, 0x10, 0, 0, 0, 0, 0, 0, 0, 0] = .error
      (.reservedOpcode 0x12) ∧ decode none [0xff] = .error (.reservedOpcode 0xff) ∧ decode none [0x02, 0x00, 0x00,
      0x00, 0x03, 0x61, 0x62, 0x63] = .error .tooShort ∧ decode none ([0x20, 0, 0, 0, 0, 0, 0, 0, 0, 0, 0, 0, 0, 0, 0,
      0, 0x20] ++ key) = .error .tooShort ∧ decode (some 65536) [0x02, 0xff, 0xff, 0xff, 0xff, 0xff, 0xff, 0xff, 0xff,
      0x61] = .error .overMaxLen ∧ decode none [] = .error .tooShort := by decide

/-- The opcode-table rows, with zeros for their operand fields. -/
theorem test_table_words :
    decodeTableWord 8 0x01 = some .hInit ∧ decodeTableWord 8 0x02 = some (.hUpdate []) ∧ decodeTableWord 8 0x03 = some
      .hFinal ∧ decodeTableWord 8 0x10 = some (.kExpand []) ∧ decodeTableWord 8 0x11 = some (.bEnc 0 []) ∧
      decodeTableWord 8 0x20 = some (.ctrProc [] [] 0) ∧ decodeTableWord 8 0x30 = some (.keyHex []) ∧ decodeTableWord
      8 0x31 = some (.ctrHex []) ∧ decodeTableWord 8 0x32 = some (.digHex 0) ∧ decodeTableWord 8 0x04 = none := by decide +kernel

/-- Response frames: an empty result, a result of 8 bytes, an error (30_encoding.md rule R52). -/
theorem test_response_frames :
    (Response.ok []).frame = [0, 0, 0, 0, 0, 0, 0, 0, 0] ∧ (Response.ok [0x12, 0x34, 0x56, 0x78, 0, 0, 0, 0]).frame =
      [0, 0, 0, 0, 0, 0, 0, 0, 8, 0x12, 0x34, 0x56, 0x78, 0, 0, 0, 0] ∧ (Response.err .invalidCounterFormat).frame =
      [4, 0, 0, 0, 0, 0, 0, 0, 0] := by decide

/-! ### Single operations -/

/-- `G(C[0], C[1], C[2])` (95_test_vectors.md section 4.1). -/
theorem test_compression :
    Hash.G (C.getD 0 0) (C.getD 1 0) (C.getD 2 0) =
      0x05decf41869286f369b0d474db3e4b71c1749f2d47cea14ae3f4f29eba9182bba8ef72304b60253bf18c20185e1a024d622dd332523db393c770c85c58310fd1 := by
  decide +kernel

/-- The table entries of section 3.4, and `P` of section 3.1. -/
theorem test_fused_table :
    Hash.T 0 0x00 = 0xe63f55ce97c331d0 ∧ Hash.T 3 0x80 = 0x7c3dbf4229a2a925 ∧ Hash.T 7 0xff = 0x27945a985d5bd4d6 := by
  decide +kernel

/-- The padded block of M1 (section 5.2): 63 pending bytes, the marker in `m[0]`. -/
theorem test_padded_block :
    Hash.paddedBlock ((List.range 63).map (fun i => BitVec.ofNat 8 (0x30 + i % 10))) =
      0x01323130393837363534333231303938373635343332313039383736353433323130393837363534333231303938373635343332313039383736353433323130 := by decide +kernel

/-- `H_INIT` in the middle of a message. -/
theorem test_hInit_clears :
    next? .hInit (pending [0x61]) = some { State.reset with resps := [⟨0, .ok []⟩] } := by decide +kernel

/-- `H_UPDATE "abc"` (section 9.1): three bytes pending, an empty result. -/
theorem test_hUpdate_holds :
    (next? (.hUpdate [0x61, 0x62, 0x63]) State.reset).map (fun t => (t.eng.pend, t.resps)) = some ([0x61, 0x62, 0x63],
      [⟨0, .ok []⟩]) := by decide +kernel

/-- The 64th byte is compressed in the operation that delivers it (42_hash_engine.md rule R102). -/
theorem test_hUpdate_fills :
    (next? (.hUpdate [0x00]) (pending (List.replicate 63 0))).map (fun t => (t.eng.fill, t.eng.N)) = some (0, 0x200) := by decide +kernel

/-- `H_FINAL` leaves the initial state (42_hash_engine.md rule R103). -/
theorem test_hFinal_resets :
    (next? .hFinal (pending [0x61])).map (fun t => t.eng) = some Engine.reset := by decide +kernel

/-- `K_EXPAND` of the bytes 00 to 1f (section 6.1): subkeys 0, 7, 24 and 31. -/
theorem test_kExpand_order :
    (Cipher.schedule (Cipher.keyWords ((List.range 32).map (BitVec.ofNat 8)))).map (fun k => k.toNat) = [0x00010203,
      0x04050607, 0x08090a0b, 0x0c0d0e0f, 0x10111213, 0x14151617, 0x18191a1b, 0x1c1d1e1f, 0x00010203, 0x04050607,
      0x08090a0b, 0x0c0d0e0f, 0x10111213, 0x14151617, 0x18191a1b, 0x1c1d1e1f, 0x00010203, 0x04050607, 0x08090a0b,
      0x0c0d0e0f, 0x10111213, 0x14151617, 0x18191a1b, 0x1c1d1e1f, 0x1c1d1e1f, 0x18191a1b, 0x14151617, 0x10111213,
      0x0c0d0e0f, 0x08090a0b, 0x04050607, 0x00010203] := by
  decide +kernel

/-- `K_EXPAND` of 31 bytes. -/
theorem test_kExpand_short :
    answers (.kExpand (key.take 31)) State.reset = some [⟨0, .err .invalidKeyLength⟩] := by decide

/-- `B_ENC` of the block `0011223344556677` under the key 00 to 1f (section 6.4). -/
theorem test_bEnc_block :
    Cipher.encryptBlock (Cipher.schedule (Cipher.keyWords ((List.range 32).map (BitVec.ofNat 8)))) 0x0011223344556677
      = 0x571d53f0ecf9c6e4 := by
  decide +kernel

/-- `B_ENC` with no word (section 6.5). -/
theorem test_bEnc_empty :
    answers (.bEnc 0xfedcba9876543210 []) State.reset = some [⟨0, .err .invalidRoundKeyCount⟩] := by decide

/-- `CTR_PROC "hello, world", KEY, 0xffffffffffffffff` (section 7.3): the counter wraps, the last block is cut. -/
theorem test_ctrProc_wraps :
    answers (.ctrProc hello key 0xffffffffffffffff) State.reset = some [⟨0, .ok [0xe4, 0x05, 0x0c, 0x0e, 0x42, 0x03,
      0x3e, 0x5a, 0x40, 0xd0, 0xa1, 0xfd]⟩] := by
  decide +kernel

/-- `CTR_PROC` with empty data: the key is checked all the same (section 7.4). -/
theorem test_ctrProc_empty :
    answers (.ctrProc [] [] 5) State.reset = some [⟨0, .err .invalidKeyLength⟩] ∧ answers (.ctrProc [] key 5)
      State.reset = some [⟨0, .ok []⟩] := by
  decide +kernel

/-- `KEY_HEX` of 0xff, `aB` 32 times, a newline: upper and lower case, other bytes stripped (section 8.1). -/
theorem test_keyHex_strips :
    answers (.keyHex (0xff :: (List.replicate 32 [0x61, 0x42]).flatten ++ [0x0a])) State.reset = some [⟨0, .ok
      (List.replicate 32 0xab)⟩] := by
  decide +kernel

/-- `KEY_HEX` of `0x` and 64 digits: 65 digits (section 8.1). -/
theorem test_keyHex_long :
    answers (.keyHex ([0x30, 0x78] ++ (List.replicate 32 [0x61, 0x62]).flatten)) State.reset = some [⟨0, .err
      .invalidHexKey⟩] := by
  decide +kernel

/-- `CTR_HEX " a B c "` (section 8.2). -/
theorem test_ctrHex_pads :
    answers (.ctrHex [0x20, 0x61, 0x20, 0x42, 0x20, 0x63, 0x20]) State.reset = some [⟨0, .ok [0, 0, 0, 0, 0, 0, 0x0a,
      0xbc]⟩] := by decide

/-- `CTR_HEX` of 17 zeros (section 8.2). -/
theorem test_ctrHex_long :
    answers (.ctrHex (List.replicate 17 0x30)) State.reset = some [⟨0, .err .invalidCounterFormat⟩] := by decide

/-- `DIG_HEX` of `abcdef01`, 59 zeros and `ff` (section 8.3). -/
theorem test_digHex_text :
    answers (.digHex
      0xabcdef010000000000000000000000000000000000000000000000000000000000000000000000000000000000000000000000000000000000000000000000ff)
      State.reset = some [⟨0, .ok ([0x41, 0x42, 0x43, 0x44, 0x45, 0x46, 0x30, 0x31] ++ List.replicate 118 0x30 ++
      [0x46, 0x46])⟩] := by
  decide +kernel

/-- A step takes the first command, answers on the engine it is sent to, and leaves the other engine (30_encoding.md rule
R52). -/
theorem test_step_second_engine :
    (stepped (pair [⟨1, [0x02, 0, 0, 0, 0, 0, 0, 0, 1, 0x61]⟩, ⟨0, [0x03]⟩])).map
        (fun t => (t.engines, t.cmds, t.resps)) =
      some ([Engine.reset, { Engine.reset with pend := [0x61] }], [⟨0, [0x03]⟩], [⟨1, .ok []⟩]) := by
  decide +kernel

/-- A command for an engine that does not exist, and an undecodable frame, are refused. -/
theorem test_step_refuses :
    refusal? (pair [⟨2, [0x01]⟩]) = some (.noSuchEngine 2) ∧
      refusal? (pair [⟨1, [0x04]⟩]) = some (.undecodable (.reservedOpcode 0x04)) := by decide +kernel

/-- A table word placed by withFetchWord is the command that the next step runs. -/
theorem test_withFetchWord :
    stepped (State.reset.withFetchWord 8 0x01) = some { State.reset with resps := [⟨0, .ok []⟩] } := by decide +kernel

/-! ### Witnesses: each meets the hypotheses of one statement, at the ends of their ranges -/

/-- FusedTablesEqualSequentialTransform: `V` is zero, `V'` differs in byte 63 only (k = 7, w = 7). -/
theorem test_witness_FusedTables :
    byteOf (1 : V512) (8 * 7 + 7) = 1 ∧ ∀ j < 64, j ≠ 8 * 7 + 7 → byteOf (1 : V512) j = byteOf zero512 j := by
  decide +kernel

/-- XorIsBytewise, SubstitutionIsBytewiseBijection, PermutationTransposesBytes, LaneMapXorsMatrixRows,
LinearTransformActsOnLanes: the first and the last byte and lane. -/
theorem test_witness_ByteAndLaneRanges : 0 < 64 ∧ 63 < 64 ∧ 0 < 8 ∧ 7 < 8 ∧ 8 * 7 + 7 = 63 := by decide

/-- HInitClearsContext, third clause: the context is initial and `H_INIT` answers. -/
theorem test_witness_HInit :
    contextOf State.reset.eng = initialContext ∧ ∃ t, exec .hInit State.reset = .next t := ⟨rfl, _, rfl⟩

/-- HUpdateAbsorbsByteByByte: no byte, no pending byte, and 63 pending bytes. -/
theorem test_witness_HUpdate :
    ([] : Bytes) = [] ∧ State.reset.eng.fill = 0 ∧ (pending (List.replicate 63 0)).eng.fill = 63 ∧ 63 ≤ 63 := by decide

/-- WindowHoldsArrivalOrderReversed: 64 bytes. -/
theorem test_witness_Window : (List.replicate 64 (0x61 : Byte)).length = 64 := by decide

/-- HFinalReturnsDigestAndResets: no pending byte (the marker at 63) and 63 (the marker at 0). -/
theorem test_witness_HFinal :
    State.reset.eng.fill ≤ 63 ∧ 63 - State.reset.eng.fill = 63 ∧ (pending (List.replicate 63 0)).eng.fill ≤ 63 ∧
      63 - (pending (List.replicate 63 0)).eng.fill = 0 := by decide

/-- ReuseAndIndependence, first clause. -/
theorem test_witness_Reuse : CipherScratchZero State.reset.eng := ⟨rfl, rfl, rfl, rfl, rfl, rfl, rfl⟩

/-- ReuseAndIndependence, second clause: a step on engine 1, looked at from engine 0. -/
theorem test_witness_Independence :
    ∃ t, (pair [⟨1, [0x01]⟩]).cmds = ⟨1, [0x01]⟩ :: [] ∧ step (pair [⟨1, [0x01]⟩]) = .next t ∧ 0 ≠ 1 :=
  ⟨_, rfl, rfl, by decide⟩

/-- ReuseAndIndependence, third clause: an operation of the list. -/
theorem test_witness_Paths :
    Instr.keyHex [] ∈ [Instr.kExpand [], .bEnc 0 [], .ctrProc [] [] 0, .keyHex [], .ctrHex [], .digHex 0] := by
  simp

/-- KExpandReturnsSchedule, CtrProcXorsKeystream, CtrProcIsInvolution, WrongKeyLengthIsReported: keys of 32, of 31 and of 33
bytes. -/
theorem test_witness_KeyLength :
    key.length = 32 ∧ (key.take 31).length ≠ 32 ∧ (key ++ [0]).length ≠ 32 ∧ ([] : Bytes).length ≠ 32 := by decide

/-- BEncRunsThirtyTwoRounds, ReversedSubkeysDecrypt: 32, 31 and 33 subkeys. -/
theorem test_witness_SubkeyCount :
    (List.replicate 32 (0 : W32)).length = 32 ∧ (List.replicate 31 (0 : W32)).length ≠ 32 ∧
      (List.replicate 33 (0 : W32)).length ≠ 32 := by decide

/-- CtrProcContinuesAtBlockBoundary: no block, and one whole block. -/
theorem test_witness_BlockBoundary :
    key.length = 32 ∧ ([] : Bytes).length % 8 = 0 ∧ (hello.take 8).length % 8 = 0 ∧ hello.length % 8 ≠ 0 := by decide

/-- HexDigitsAreTwentyTwoCodes: the codes on both sides of each range. -/
theorem test_witness_HexDigits :
    hexVal 0x2f = none ∧ hexVal 0x30 = some 0 ∧ hexVal 0x39 = some 9 ∧ hexVal 0x3a = none ∧ hexVal 0x40 = none ∧
      hexVal 0x41 = some 10 ∧ hexVal 0x46 = some 15 ∧ hexVal 0x47 = none ∧ hexVal 0x60 = none ∧
      hexVal 0x61 = some 10 ∧ hexVal 0x66 = some 15 ∧ hexVal 0x67 = none ∧ hexVal 0xff = none := by decide

/-- KeyHexParsesSixtyFourDigits: 64, 63 and 65 digits. -/
theorem test_witness_KeyText :
    (stripHex (List.replicate 64 0x61)).length = 64 ∧ (stripHex (List.replicate 63 0x61 ++ [0x67])).length ≠ 64 ∧
      (stripHex (List.replicate 65 0x61)).length ≠ 64 := by decide

/-- CtrHexParsesUpToSixteenDigits: 1 and 16 digits, 0 and 17 digits. -/
theorem test_witness_CounterText :
    (0 < (stripHex [0x31]).length ∧ (stripHex [0x31]).length ≤ 16) ∧
      (0 < (stripHex (List.replicate 16 0x66)).length ∧ (stripHex (List.replicate 16 0x66)).length ≤ 16) ∧
      (stripHex [0x7a, 0x7a]).length = 0 ∧ 16 < (stripHex (List.replicate 17 0x30)).length := by decide

/-- FailedOperationChangesNothing: an operation that fails. -/
theorem test_witness_FailedOperation :
    ∃ t, exec (.kExpand []) State.reset = .next t ∧
      t.resps = State.reset.resps ++ [⟨State.reset.number, .err .invalidKeyLength⟩] := ⟨_, rfl, rfl⟩

/-- FailedOperationChangesNothing: scratch that is zero. -/
theorem test_witness_ScratchZero : CipherScratchZero Engine.reset ∧ HashScratchZero Engine.reset :=
  ⟨⟨rfl, rfl, rfl, rfl, rfl, rfl, rfl⟩, rfl, rfl, rfl, rfl⟩

/-- ResponseFrameCarriesStatusAndResult: one frame, an OK response and an error. -/
theorem test_witness_ResponseFrame :
    (Response.ok [0x61]).frame = (Response.ok [0x61]).frame ∧
      (Response.err .invalidHexKey).frame ≠ (Response.ok []).frame := by decide

/-- OperationFrames, each of its nine clauses: an operation that answers. -/
theorem test_witness_OperationFrames (i : Instr) : ∃ t, exec i State.reset = .next t :=
  have ⟨e, r, h⟩ := exec_answers i State.reset
  ⟨{ State.reset with eng := e, resps := State.reset.resps ++ [⟨State.reset.number, r⟩] }, h⟩

/-- StepKeepsInvariant: two engines, one with 63 pending bytes, a command that fills its window. -/
theorem test_witness_StepKeepsInvariant :
    StateInv { pending (List.replicate 63 0) with after := [Engine.reset], cmds := [⟨0, [0x01]⟩] } ∧
      ∃ t, step { pending (List.replicate 63 0) with after := [Engine.reset], cmds := [⟨0, [0x01]⟩] } = .next t := by
  refine ⟨?_, _, rfl⟩
  intro e he
  have he' : e = (pending (List.replicate 63 0)).eng ∨ e = Engine.reset := by
    simpa [State.engines, pending, State.reset, State.resetWith] using he
  rcases he' with rfl | rfl
  · exact ⟨by decide, by decide +kernel, ⟨rfl, rfl, rfl, rfl, rfl, rfl, rfl⟩, rfl, rfl, rfl, rfl⟩
  · exact ⟨by decide, by decide +kernel, ⟨rfl, rfl, rfl, rfl, rfl, rfl, rfl⟩, rfl, rfl, rfl, rfl⟩

/-- StepRunsDecodedCommand, EveryDecodedCommandIsAnsweredOnce: a command for the last of two engines. -/
theorem test_witness_DecodedCommand :
    (pair [⟨1, [0x03]⟩]).cmds = ⟨1, [0x03]⟩ :: [] ∧ 1 < (pair [⟨1, [0x03]⟩]).engines.length ∧
      decode (pair [⟨1, [0x03]⟩]).maxLen [0x03] = .ok .hFinal := by
  refine ⟨rfl, by decide, rfl⟩

/-- UndecodableFrameIsRefused: a reserved opcode. -/
theorem test_witness_UndecodableFrame :
    (pair [⟨1, [0x00]⟩]).cmds = ⟨1, [0x00]⟩ :: [] ∧ 1 < (pair [⟨1, [0x00]⟩]).engines.length ∧
      decode (pair [⟨1, [0x00]⟩]).maxLen [0x00] = .error (.reservedOpcode 0x00) := by
  refine ⟨rfl, by decide, rfl⟩

/-- NoCommandNoChange. -/
theorem test_witness_NoCommand : State.reset.cmds = [] := rfl

/-- EnginesDoNotInterfere for engine 0: the same frame for it, other frames for engine 1, in another order. -/
theorem test_witness_EnginesDoNotInterfere :
    let s := pair [⟨0, [0x01]⟩, ⟨1, [0x01]⟩]
    let s' := pair [⟨1, [0x31, 0, 0, 0, 0, 0, 0, 0, 0]⟩, ⟨0, [0x01]⟩]
    s.maxLen = s'.maxLen ∧ s.engines[0]? = s'.engines[0]? ∧ framesTo 0 s.cmds = framesTo 0 s'.cmds ∧
      responsesOf 0 s.resps = responsesOf 0 s'.resps ∧ (∃ t, runSteps s.cmds.length s = .next t) ∧
      ∃ t', runSteps s'.cmds.length s' = .next t' :=
  ⟨rfl, rfl, rfl, rfl, ⟨_, rfl⟩, _, rfl⟩

/-- DecodeOfEncode: well-formed commands, one of each constructor, at MAXLEN exactly where they have a length. -/
theorem test_witness_DecodeOfEncode :
    WellFormed (some 0) .hInit ∧ WellFormed (some 1) (.hUpdate [1]) ∧ WellFormed (some 0) .hFinal ∧
      WellFormed (some 32) (.kExpand key) ∧ WellFormed (some 4) (.bEnc 0 [0xffffffff]) ∧
      WellFormed (some 32) (.ctrProc hello key 5) ∧ WellFormed (some 1) (.keyHex [0x30]) ∧
      WellFormed (some 1) (.ctrHex [0x30]) ∧ WellFormed (some 0) (.digHex 1) := by decide

/-- DecodedFrameIsItsEncoding: a frame that decodes. -/
theorem test_witness_DecodedFrame : decode (some 2) [0x31, 0, 0, 0, 0, 0, 0, 0, 2, 0x7a, 0x7a] = .ok (.ctrHex [0x7a, 0x7a]) := by
  decide

/-- ReservedOpcodesAreRefused: reserved bytes beside the assigned ones, and an assigned one. -/
theorem test_witness_ReservedOpcodes :
    (∀ op ∈ [(0x00 : Byte), 0x04, 0x0f, 0x12, 0x1f, 0x21, 0x2f, 0x33, 0xff],
      op ∉ [(0x01 : Byte), 0x02, 0x03, 0x10, 0x11, 0x20, 0x30, 0x31, 0x32]) ∧
      (0x32 : Byte) ∈ [(0x01 : Byte), 0x02, 0x03, 0x10, 0x11, 0x20, 0x30, 0x31, 0x32] := by decide

/-- LengthOverMaxIsRefused: one byte over MAXLEN 7, one word (8 bytes) over it, the largest LEN64. -/
theorem test_witness_LengthOverMax :
    7 < 8 ∧ 8 < 2 ^ 64 ∧ (List.replicate 7 (0 : Byte)).length ≤ 7 ∧ (List.replicate 8 (0 : Byte)).length = 8 ∧
      7 < 4 * 2 ∧ 2 < 2 ^ 64 ∧ 7 < 2 ^ 64 - 1 ∧ 2 ^ 64 - 1 < 2 ^ 64 := by decide

end Sys2Proof.Tests
end

section
/-! PROOFS. The block that arrives, seen as a V512 (20_memory.md rule R27). -/

namespace Sys2Proof.Machine

/-- The last byte of a V512 is the least significant one of its number. -/
theorem toNat_byteOf_last (V : V512) : (byteOf V 63).toNat = V.toNat % 256 := by
  simp [byteOf, BitVec.extractLsb'_toNat]

theorem bytes512_arrivedBlock {s : Bytes} (h : s.length = 64) : bytes512 (arrivedBlock s) = s.reverse :=
  bytes512_ofBytes (by simpa using h)

/-- The byte that arrives at place `i` is the `i`-th from the least significant end. -/
theorem byteOf_arrivedBlock {s : Bytes} (h : s.length = 64) {i : Nat} (hi : i < 64) :
    byteOf (arrivedBlock s) (63 - i) = s.getD i 0 := by
  have hplace : s.length - 1 - (63 - i) = i := by omega
  rw [arrivedBlock, byteOf_ofBytes (by simpa using h) (by omega), List.getElem_reverse]
  simp only [hplace, List.getD_eq_getElem s 0 (show i < s.length by omega)]

/-- Settles O12: reversing the arrival order puts the first byte at the least significant end. -/
theorem windowHoldsArrivalOrderReversed : Obligations.WindowHoldsArrivalOrderReversed := by
  intro s h
  refine ⟨fun i hi => byteOf_arrivedBlock h hi, bytes512_arrivedBlock h, ?_⟩
  have hfirst : byteOf (arrivedBlock s) 63 = s.getD 0 0 := byteOf_arrivedBlock h (i := 0) (by omega)
  rw [← toNat_byteOf_last, hfirst]

end Sys2Proof.Machine
end

section
/-! PROOFS. Exclusive ors of a family of lanes, and the bijections that the primitive transforms are built from
(40_hash_tables.md sections 1 and 2). -/

namespace Sys2Proof.Machine

/-- There are finitely many words of a width, so an injective map of them is a bijection. -/
theorem bijective_of_injective {n : Nat} {f : BitVec n → BitVec n} (hf : Function.Injective f) :
    Function.Bijective f :=
  have : Finite (BitVec n) := Finite.of_injective BitVec.toFin fun _ _ => BitVec.eq_of_toFin_eq
  Finite.injective_iff_bijective.mp hf

namespace Hash

/-! ### The byte substitution -/

/-- The rows of the inverse of `PI`, in the layout of `piRows`. -/
def piInvRows : List (BitVec 128) :=
  [0xa52d328f0e3038c054e69e39557e5291,
   0x6403575a1c6007182172a8d129c6a43f,
   0xe0278d0c82eaaeb49a6349e542e415b7,
   0xc806709d417519c9aafc4dbf2a7384d5,
   0xc3af2b86a7b1b25b46d39ffdd40f9c2f,
   0x9b43efd979b6537fc1f023e7255eb51e,
   0xa2dfa6feac22f9e24abc35caee78056b,
   0x51e159a3f27156116a8994658cbb773c,
   0x7b28abd231dec45fcccf762cb8d82e36,
   0xdb69b31495be62a13b1666e95c6c6dad,
   0x37614bb9e3baf1a08583da47c5b033fa,
   0x966f6ec2f650ff5da98e171b977dec58,
   0xf71ffb7c090d7a674587dce84f1d4e04,
   0xebf8f33e3dbd8a88ddcd0b1398029380,
   0x90d02434cbedf4ce99104440923a0126,
   0x121a4868f5818bc7d6200a08004cd774]

/-- The inverse of `PI`. -/
def piInv (y : Byte) : Byte :=
  (piInvRows.getD (y.toNat / 16) 0).extractLsb' (8 * (15 - y.toNat % 16)) 8

theorem piInv_PI : ∀ x : Byte, piInv (PI x) = x := by decide +kernel

theorem PI_injective : Function.Injective PI := Function.LeftInverse.injective piInv_PI

/-! ### Exclusive ors of a family of lanes -/

/-- The exclusive or of `f 0` to `f (n - 1)`. -/
def xorSum (f : Nat → W64) (n : Nat) : W64 := (List.range n).foldl (fun r k => r ^^^ f k) 0

@[simp] theorem xorSum_zero (f : Nat → W64) : xorSum f 0 = 0 := rfl

@[simp] theorem xorSum_succ (f : Nat → W64) (n : Nat) : xorSum f (n + 1) = xorSum f n ^^^ f n := by
  simp [xorSum, List.range_succ]

theorem xorSum_congr {f g : Nat → W64} {n : Nat} (h : ∀ k < n, f k = g k) : xorSum f n = xorSum g n := by
  induction n with
  | zero => rfl
  | succ n ih => rw [xorSum_succ, xorSum_succ, ih fun k hk => h k (by omega), h n (by omega)]

/-- Families that differ in one place only: so do their exclusive ors. -/
theorem xorSum_xor_of_eq_off {f g : Nat → W64} {n k : Nat} (hk : k < n) (h : ∀ j < n, j ≠ k → f j = g j) :
    xorSum f n ^^^ xorSum g n = f k ^^^ g k := by
  induction n with
  | zero => omega
  | succ n ih =>
    have hswap : xorSum f (n + 1) ^^^ xorSum g (n + 1) = (xorSum f n ^^^ xorSum g n) ^^^ (f n ^^^ g n) := by
      rw [xorSum_succ, xorSum_succ]; ac_rfl
    rw [hswap]
    by_cases hkn : k = n
    · subst hkn
      rw [xorSum_congr fun j hj => h j (by omega) (by omega), BitVec.xor_self, BitVec.zero_xor]
    · rw [ih (by omega) fun j hj hjk => h j (by omega) hjk, h n (by omega) (by omega), BitVec.xor_self,
        BitVec.xor_zero]

/-! ### The linear map on a lane -/

theorem rowSum_zero (i : Nat) (rows : List W64) : rowSum 0 i rows = 0 := by
  have hdouble := rowSum_xor 0 0 i rows
  rwa [BitVec.xor_self, BitVec.xor_self] at hdouble

@[simp] theorem l64_zero : l64 0 = 0 := rowSum_zero 0 A

theorem l64_xor (x y : W64) : l64 (x ^^^ y) = l64 x ^^^ l64 y := rowSum_xor x y 0 A

theorem l64_xorSum (f : Nat → W64) (n : Nat) : l64 (xorSum f n) = xorSum (fun k => l64 (f k)) n := by
  induction n with
  | zero => exact l64_zero
  | succ n ih => rw [xorSum_succ, l64_xor, ih, xorSum_succ]

/-- The matrix of the inverse of `l64`, in the layout of `A`. -/
def AInv : List W64 :=
  [0x62ab88cd0972e917, 0x31db44e88a39fa85, 0x96e3227445927dcc, 0x4bff113aac49b066,
   0xabf1861d56aa5833, 0xdbf643802b552c97, 0xe37baf409ba416c5, 0xffb3d920c3520bec,
   0x37ac80ec39310f5c, 0x955640769296892e, 0xc42b203b494bca17, 0x629b1093aaab6585,
   0x31c308c755dbbccc, 0x96ef04eda4e35e66, 0x4bf902f852ff2f33, 0xabf2017c29f19997,
   0x7ba7f6d2966a717c, 0xb3dd7b694b35b63e, 0xd7e0b3baab945b1f, 0xe570d75ddb4aa381,
   0xfc38e5a0e325dfce, 0x7e1cfc50ff9ce167, 0x3f0e7e28f14efebd, 0x91073f14f6277fd0,
   0x8f75c66271c4c510, 0xc9b46331b662ec08, 0xea5abf965b317604, 0x752dd14ba3963b02,
   0xb498e6abdf4b9301, 0x5a4c73dbe1abc78e, 0x2d26b7e3fedbed47, 0x9813d5ff7fe3f8ad,
   0xa27784688a48d4ef, 0x51b5423445246af9, 0xa6d4211aac1235f2, 0x536a9e0d56099479,
   0xa7354f882b8a4ab2, 0xdd94a9449b452559, 0xe04ada22c3ac9ca2, 0x70256d11ef564e51,
   0x38d6992f43439caa, 0x1c6bc299afaf4e55, 0x0ebb61c2d9d927a4, 0x07d3be61e2e29d52,
   0x8de75fbe7171c029, 0xc8fda15fb6b6609a, 0x64f0dea15b5b304d, 0x32786fdea3a318a8,
   0x7388fc7df56416b6, 0xb7447eb0f4320b5b, 0xd5223f587a198ba3, 0xe411912c3d82cbdf,
   0x7286c6169041ebe1, 0x3943630b48aefbfe, 0x92afbf8b2457f37f, 0x49d9d1cb12a5f7b1,
   0x321902ad3c69a5e9, 0x198201d81ebadcfa, 0x82418e6c0f5d6e7d, 0x41ae473689a037b0,
   0xae57ad1bca509558, 0x57a5d8836528c42c, 0xa5dc6ccfbc146216, 0xdc6e36e95e0a310b]

/-- The linear map with the inverse matrix. -/
def l64Inv (x : W64) : W64 := rowSum x 0 AInv

/-- A linear map after a row sum is the row sum of the mapped rows. -/
theorem l64Inv_rowSum (x : W64) (i : Nat) (rows : List W64) :
    l64Inv (rowSum x i rows) = rowSum x i (rows.map l64Inv) := by
  induction rows generalizing i with
  | nil => exact rowSum_zero 0 AInv
  | cons row rows ih =>
    have hxor (y z : W64) : l64Inv (y ^^^ z) = l64Inv y ^^^ l64Inv z := rowSum_xor y z 0 AInv
    have hzero : l64Inv 0 = 0 := rowSum_zero 0 AInv
    simp only [rowSum, List.map_cons, hxor, ih, apply_ite l64Inv, hzero]

/-- The last `n` rows of the unit matrix. -/
def unitRows (n : Nat) : List W64 := (List.range n).reverse.map (BitVec.twoPow 64)

theorem unitRows_succ (n : Nat) : unitRows (n + 1) = BitVec.twoPow 64 n :: unitRows n := by
  simp [unitRows, List.range_succ]

/-- The last `n` unit rows pick out the `n` low bits. -/
theorem getLsbD_rowSum_unitRows (x : W64) (j : Nat) {n : Nat} (hn : n ≤ 64) :
    (rowSum x (64 - n) (unitRows n)).getLsbD j = (decide (j < n) && x.getLsbD j) := by
  induction n with
  | zero => simp [unitRows, rowSum]
  | succ n ih =>
    have hbit : 63 - (64 - (n + 1)) = n := by omega
    have hnext : 64 - (n + 1) + 1 = 64 - n := by omega
    rw [unitRows_succ, rowSum, hbit, hnext, BitVec.getLsbD_xor, ih (by omega)]
    by_cases hj : j = n
    · subst hj
      have hwidth : j < 64 := by omega
      cases hx : x.getLsbD j <;> simp [hwidth]
    · have hlt : j < n + 1 ↔ j < n := by omega
      cases hx : x.getLsbD n <;> simp [BitVec.getLsbD_twoPow, hlt, Ne.symm hj]

theorem rowSum_unitRows (x : W64) : rowSum x 0 (unitRows 64) = x := by
  apply BitVec.eq_of_getLsbD_eq
  intro j hj
  simpa [hj] using getLsbD_rowSum_unitRows x j (n := 64) (by omega)

/-- The product of the two matrices is the unit matrix. -/
theorem map_l64Inv_A : A.map l64Inv = unitRows 64 := by decide +kernel

theorem l64Inv_l64 (x : W64) : l64Inv (l64 x) = x := by
  rw [l64, l64Inv_rowSum, map_l64Inv_A, rowSum_unitRows]

theorem l64_injective : Function.Injective l64 := Function.LeftInverse.injective l64Inv_l64

end Hash

end Sys2Proof.Machine
end

section
/-! PROOFS. The three transforms and their composition: bijections, and what they do to bytes and lanes (40_hash_tables.md
rules R74 to R79). -/

namespace Sys2Proof.Machine

namespace Hash

/-- The transpose of a byte position: byte `k` of lane `w` and byte `w` of lane `k` (40_hash_tables.md rule R71). -/
theorem TAU_lane {w k : Nat} (hk : k < 8) : TAU (8 * w + k) = 8 * k + w := by
  unfold TAU; omega

theorem TAU_lt {i : Nat} (hi : i < 64) : TAU i < 64 := by
  unfold TAU; omega

theorem TAU_TAU {i : Nat} (hi : i < 64) : TAU (TAU i) = i := by
  unfold TAU; omega

theorem byteOf_P_lane (V : V512) {w k : Nat} (hw : w < 8) (hk : k < 8) :
    byteOf (P V) (8 * w + k) = byteOf V (8 * k + w) := by
  rw [byteOf_P V (by omega), TAU_lane hk]

theorem P_involutive : Function.Involutive P := fun V =>
  eq_of_byteOf fun i hi => by rw [byteOf_P _ hi, byteOf_P _ (TAU_lt hi), TAU_TAU hi]

theorem P_S (V : V512) : P (S V) = S (P V) :=
  eq_of_byteOf fun i hi => by rw [byteOf_P _ hi, byteOf_S _ (TAU_lt hi), byteOf_S _ hi, byteOf_P _ hi]

theorem S_injective : Function.Injective S := fun V W h =>
  eq_of_byteOf fun i hi => PI_injective <| by rw [← byteOf_S V hi, ← byteOf_S W hi, h]

theorem L_injective : Function.Injective L := fun V W h =>
  eq_of_laneOf fun w hw => l64_injective <| by rw [← laneOf_L V hw, ← laneOf_L W hw, h]

theorem LPS_injective : Function.Injective LPS :=
  L_injective.comp (P_involutive.injective.comp S_injective)

theorem laneOf_zero512 (w : Nat) : laneOf zero512 w = 0 := by simp [laneOf]

theorem byteOf_zero512 (i : Nat) : byteOf zero512 i = 0 := by simp [byteOf]

theorem L_zero512 : L zero512 = zero512 :=
  eq_of_laneOf fun w hw => by rw [laneOf_L _ hw, laneOf_zero512, l64_zero]

theorem L_X (a b : V512) : L (X a b) = X (L a) (L b) :=
  eq_of_laneOf fun w hw => by rw [laneOf_X, laneOf_L _ hw, laneOf_L _ hw, laneOf_L _ hw, laneOf_X, l64_xor]

end Hash

/-- The bytes of lane `w` are bytes `8w` to `8w + 7` (20_memory.md rule R30). -/
theorem drop_take_bytes512 (V : V512) {w : Nat} (hw : w < 8) :
    ((bytes512 V).drop (8 * w)).take 8 = (List.range 8).map (fun k => byteOf V (8 * w + k)) := by
  apply List.ext_getElem
  · simp; omega
  · intro k h1 h2
    simp [getElem_bytes512]

theorem be64_drop_take_bytes512 (V : V512) {w : Nat} (hw : w < 8) :
    be64 (((bytes512 V).drop (8 * w)).take 8) = laneOf V w := by
  rw [drop_take_bytes512 V hw, laneOf_eq_pack V hw, be64]

theorem bytes64_laneOf (V : V512) {w : Nat} (hw : w < 8) :
    bytes64 (laneOf V w) = ((bytes512 V).drop (8 * w)).take 8 := by
  rw [← be64_drop_take_bytes512 V hw, bytes64_be64 (by simp; omega)]

/-- Settles O1: a byte of an exclusive or is `byteOf_X`, and the laws are those of the exclusive or of words. -/
theorem xorIsBytewise : Obligations.XorIsBytewise := by
  intro a b c
  exact ⟨fun i _ => Hash.byteOf_X a b i, BitVec.xor_comm a b, BitVec.xor_assoc a b c, BitVec.xor_zero, BitVec.xor_self,
    BitVec.zero_xor⟩

/-- Settles O2: the table `piInv` undoes `PI`, so `PI`, and with it `S`, is an injective map of finitely many words. -/
theorem substitutionIsBytewiseBijection : Obligations.SubstitutionIsBytewiseBijection := by
  refine ⟨fun V i hi => Hash.byteOf_S V hi, bijective_of_injective Hash.PI_injective,
    bijective_of_injective Hash.S_injective, fun i hi => ?_⟩
  rw [Hash.byteOf_S _ hi, Hash.byteOf_zero512]
  decide

/-- Settles O3: `TAU` transposes byte positions, and a substitution of every byte does not see their order. -/
theorem permutationTransposesBytes : Obligations.PermutationTransposesBytes := by
  refine ⟨fun V => ⟨fun i hi => Hash.byteOf_P V hi, fun w hw k hk => Hash.byteOf_P_lane V hw hk, Hash.P_involutive V,
    Hash.P_S V⟩, ?_⟩
  decide +kernel

/-- Settles O5: `L` acts lane by lane, and `l64` is linear. -/
theorem linearTransformActsOnLanes : Obligations.LinearTransformActsOnLanes := by
  refine ⟨fun V w hw => ⟨Hash.laneOf_L V hw, ?_⟩, Hash.L_zero512, Hash.L_X, ?_, by decide +kernel⟩
  · rw [be64_drop_take_bytes512 V hw, ← Hash.laneOf_L V hw, bytes64_laneOf _ hw]
  · rw [Hash.laneOf_L _ (by omega)]
    exact congrArg Hash.l64 (by decide +kernel)

/-- Settles O6: each of the three transforms is injective, and a V512 has finitely many values. -/
theorem lpsIsSequentialAndBijective : Obligations.LpsIsSequentialAndBijective :=
  ⟨fun _ => rfl, bijective_of_injective Hash.LPS_injective, by decide +kernel, by decide +kernel⟩

end Sys2Proof.Machine
end

section
/-! PROOFS. The fused tables (40_hash_tables.md rules R81 and R82): a lane is the exclusive or of its bytes, each at its
place, and `l64` is linear. -/

namespace Sys2Proof.Machine

namespace Hash

/-- A byte as byte `k` of a lane that is zero elsewhere (40_hash_tables.md rule R81). -/
def placed (k : Nat) (b : Byte) : W64 := BitVec.ofNat 64 (b.toNat * 256 ^ (7 - k))

theorem T_eq (k : Nat) (b : Byte) : T k b = l64 (placed k (PI b)) := rfl

theorem getLsbD_placed (k : Nat) (b : Byte) {j : Nat} (hj : j < 64) :
    (placed k b).getLsbD j = (decide (8 * (7 - k) ≤ j) && b.getLsbD (j - 8 * (7 - k))) := by
  have hpow : 256 ^ (7 - k) = 2 ^ (8 * (7 - k)) := by rw [Nat.pow_mul]
  rw [placed, hpow, BitVec.getLsbD_ofNat, Nat.testBit_mul_two_pow]
  simp [hj, BitVec.getLsbD]

/-- The first `n` bytes of a lane, each at its place, are its `8n` high bits. -/
theorem getLsbD_xorSum_placed (V : V512) {w n j : Nat} (hw : w < 8) (hn : n ≤ 8) (hj : j < 64) :
    (xorSum (fun k => placed k (byteOf V (8 * w + k))) n).getLsbD j =
      (decide (64 - 8 * n ≤ j) && (laneOf V w).getLsbD j) := by
  induction n with
  | zero => simp; omega
  | succ n ih =>
    rw [xorSum_succ, BitVec.getLsbD_xor, ih (by omega), getLsbD_placed _ _ hj]
    simp only [laneOf, byteOf, BitVec.getLsbD_extractLsb']
    by_cases hlow : j < 8 * (7 - n)
    · have hout : ¬ 64 - 8 * n ≤ j ∧ ¬ 8 * (7 - n) ≤ j ∧ ¬ 64 - 8 * (n + 1) ≤ j := by omega
      simp [hout]
    · have hplace : 8 * (63 - (8 * w + n)) + (j - 8 * (7 - n)) = 64 * (7 - w) + j := by omega
      have hin : 8 * (7 - n) ≤ j ∧ 64 - 8 * (n + 1) ≤ j := by omega
      have hbyte : j - 8 * (7 - n) < 8 ↔ ¬ 64 - 8 * n ≤ j := by omega
      by_cases hhigh : 64 - 8 * n ≤ j <;> simp [hplace, hin, hbyte, hhigh, hj]

theorem laneOf_eq_xorSum (V : V512) {w : Nat} (hw : w < 8) :
    laneOf V w = xorSum (fun k => placed k (byteOf V (8 * w + k))) 8 := by
  apply BitVec.eq_of_getLsbD_eq
  intro j hj
  rw [getLsbD_xorSum_placed V hw (Nat.le_refl 8) hj]
  simp

theorem fusedLane_eq (V : V512) (w : Nat) : fusedLane V w = xorSum (fun k => T k (byteOf V (8 * k + w))) 8 := rfl

theorem laneOf_LPSfused (V : V512) {w : Nat} (hw : w < 8) :
    laneOf (LPSfused V) w = xorSum (fun k => T k (byteOf V (8 * k + w))) 8 := by
  rw [LPSfused, laneOf_ofLanes (by simp) hw, List.getElem_map, List.getElem_range, fusedLane_eq]

theorem laneOf_LPS (V : V512) {w : Nat} (hw : w < 8) :
    laneOf (LPS V) w = xorSum (fun k => T k (byteOf V (8 * k + w))) 8 := by
  rw [LPS, laneOf_L _ hw, laneOf_eq_xorSum _ hw, l64_xorSum]
  apply xorSum_congr
  intro k hk
  rw [byteOf_P_lane _ hw hk, byteOf_S _ (by omega), T_eq]

end Hash

/-- Settles O7: lane `w` of both forms is the exclusive or of the same eight look-ups, and a change in one input byte changes
one of them. -/
theorem fusedTablesEqualSequentialTransform : Obligations.FusedTablesEqualSequentialTransform := by
  refine ⟨fun V w hw => Hash.laneOf_LPSfused V hw,
    fun V => eq_of_laneOf fun w hw => by rw [Hash.laneOf_LPSfused V hw, Hash.laneOf_LPS V hw], ?_⟩
  intro V V' b k hk w hw hb hoff
  rw [Hash.laneOf_LPS V' hw, Hash.laneOf_LPS V hw, Hash.xorSum_xor_of_eq_off hk, hb]
  intro j hj hjk
  rw [hoff (8 * j + w) (by omega) (by omega)]

end Sys2Proof.Machine
end

section
/-! PROOFS. Addition modulo 2^512 as the byte loop with a carry (40_hash_tables.md rule R83). -/

namespace Sys2Proof.Machine

/-- `unpack` seen from its least significant digit. -/
theorem reverse_unpack_succ (w n x : Nat) :
    (unpack w (n + 1) x).reverse = BitVec.ofNat w x :: (unpack w n (x / 2 ^ w)).reverse := by
  induction n generalizing x with
  | zero => simp [unpack]
  | succ n ih =>
    have hdigit : x / 2 ^ (w * (n + 1)) = x / 2 ^ w / 2 ^ (w * n) := by
      rw [Nat.div_div_eq_div_mul, ← Nat.pow_add, Nat.mul_add, Nat.mul_one, Nat.add_comm]
    rw [unpack, List.reverse_cons, ih, hdigit]
    simp [unpack]

/-- The carry loop on the `n` low bytes of two numbers gives those of their sum with the carry in. -/
theorem carryAdd_unpack (n c x y : Nat) :
    Hash.carryAdd c ((unpack 8 n x).reverse.zip (unpack 8 n y).reverse) = (unpack 8 n (x + y + c)).reverse := by
  induction n generalizing c x y with
  | zero => rfl
  | succ n ih =>
    rw [reverse_unpack_succ, reverse_unpack_succ, reverse_unpack_succ, List.zip_cons_cons, Hash.carryAdd, ih]
    have hbyte : BitVec.ofNat 8 ((BitVec.ofNat 8 x).toNat + (BitVec.ofNat 8 y).toNat + c) = BitVec.ofNat 8 (x + y + c) := by
      apply BitVec.eq_of_toNat_eq
      simp only [BitVec.toNat_ofNat]
      omega
    have hrest : x / 2 ^ 8 + y / 2 ^ 8 + ((BitVec.ofNat 8 x).toNat + (BitVec.ofNat 8 y).toNat + c) / 256 =
        (x + y + c) / 2 ^ 8 := by
      simp only [BitVec.toNat_ofNat]
      omega
    rw [hbyte, hrest]

theorem bytes512_ADD512 (a b : V512) : bytes512 (Hash.ADD512 a b) = unpack 8 64 (a.toNat + b.toNat) := by
  rw [Hash.ADD512, bytes512, BitVec.toNat_add, pow512_bytes, unpack_mod]

/-- Settles O8: at each byte the digits left of both numbers and the carry make up the rest of the sum. -/
theorem add512IsCarryLoop : Obligations.Add512IsCarryLoop := by
  intro a b
  refine ⟨by rw [Hash.ADD512, BitVec.toNat_add], ?_, BitVec.add_zero a, by decide +kernel, by decide +kernel⟩
  rw [bytes512_ADD512, bytes512, bytes512, carryAdd_unpack, Nat.add_zero]

end Sys2Proof.Machine
end

section
/-! PROOFS. The hash context: what clears it, how it takes up the bytes of an operand, and what leaves it alone
(42_hash_engine.md rules R101, R102, R106). -/

namespace Sys2Proof.Machine

@[simp] theorem contextOf_clearContext (e : Engine) : contextOf e.clearContext = initialContext := rfl

theorem contextOf_eq_initialContext {e : Engine} :
    contextOf e = initialContext ↔ e.h = zero512 ∧ e.N = zero512 ∧ e.Sigma = zero512 ∧ e.pend = [] := by
  simp [contextOf, initialContext]

/-- Clearing a context that is already initial changes nothing. -/
theorem Engine.clearContext_of_initial {e : Engine} (hctx : contextOf e = initialContext) : e.clearContext = e := by
  obtain ⟨h, N, Sigma, pend, _⟩ := e
  obtain ⟨rfl, rfl, rfl, rfl⟩ := contextOf_eq_initialContext.mp hctx
  rfl

/-- Settles O10: `H_INIT` answers with the context cleared, and clearing an initial context changes nothing. -/
theorem hInitClearsContext : Obligations.HInitClearsContext := by
  refine ⟨rfl, fun s => exec_hInit s, fun s t hctx ht => ?_, _, _, rfl, rfl, rfl, rfl⟩
  rw [exec_hInit, State.complete_eq_next] at ht
  rw [ht, Engine.clearContext_of_initial hctx]

/-- One byte enters a hash context (42_hash_engine.md rule R102). -/
def contextByte (c : V512 × V512 × V512 × Bytes) (b : Byte) : V512 × V512 × V512 × Bytes :=
  let pend := c.2.2.2 ++ [b]
  if pend.length = 64 then
    (Hash.G c.1 c.2.1 (arrivedBlock pend), Hash.ADD512I c.2.1 512, Hash.ADD512 c.2.2.1 (arrivedBlock pend), [])
  else (c.1, c.2.1, c.2.2.1, pend)

theorem contextOf_absorbByte (e : Engine) (b : Byte) : contextOf (e.absorbByte b) = contextByte (contextOf e) b := by
  by_cases hf : e.pend.length + 1 = 64
  · rw [Engine.absorbByte_of_eq _ _ hf, Engine.absorbBlock_eq]
    simp [contextOf, contextByte, Engine.window, hf]
  · rw [Engine.absorbByte_of_ne _ _ hf]
    simp [contextOf, contextByte, hf]

/-- The context after an operand depends on the context before it and the operand only. -/
theorem contextOf_absorb (e : Engine) (data : Bytes) :
    contextOf (e.absorb data) = data.foldl contextByte (contextOf e) :=
  (List.foldl_hom contextOf fun e b => (contextOf_absorbByte e b).symm).symm

theorem Engine.absorbByte_counts (e : Engine) (b : Byte) (hf : e.fill ≤ 63) :
    (e.absorbByte b).fill = (e.fill + 1) % 64 ∧
      (e.absorbByte b).N = e.N + BitVec.ofNat 512 (512 * ((e.fill + 1) / 64)) := by
  unfold Engine.fill at *
  by_cases hfull : e.pend.length + 1 = 64
  · rw [Engine.absorbByte_of_eq _ _ hfull]
    simp [hfull, Hash.ADD512I]
  · have hdiv : (e.pend.length + 1) / 64 = 0 := by omega
    have hmod : (e.pend.length + 1) % 64 = e.pend.length + 1 := by omega
    rw [Engine.absorbByte_of_ne _ _ hfull]
    simp [hdiv, hmod]

/-- The blocks that an operand completes, and the bytes it leaves pending (42_hash_engine.md rule R102). -/
theorem Engine.absorb_counts (e : Engine) (data : Bytes) (hf : e.fill ≤ 63) :
    (e.absorb data).fill = (e.fill + data.length) % 64 ∧
      (e.absorb data).N = e.N + BitVec.ofNat 512 (512 * ((e.fill + data.length) / 64)) := by
  induction data generalizing e with
  | nil =>
    have hdiv : e.fill / 64 = 0 := by omega
    have hmod : e.fill % 64 = e.fill := by omega
    simp [hdiv, hmod]
  | cons b bs ih =>
    obtain ⟨hfill, hN⟩ := e.absorbByte_counts b hf
    obtain ⟨hfill', hN'⟩ := ih (e.absorbByte b) (by omega)
    have hblocks : 512 * ((e.fill + (b :: bs).length) / 64) =
        512 * ((e.fill + 1) / 64) + 512 * (((e.fill + 1) % 64 + bs.length) / 64) := by
      rw [List.length_cons]
      omega
    rw [Engine.absorb_cons, hfill', hN', hfill, hN, hblocks, BitVec.ofNat_add, BitVec.add_assoc]
    refine ⟨?_, rfl⟩
    rw [List.length_cons]
    omega

/-- Settles O11: absorbing is the rule's loop on the context, byte by byte, and the counts follow by induction. -/
theorem hUpdateAbsorbsByteByByte : Obligations.HUpdateAbsorbsByteByByte := by
  refine ⟨fun data s => ⟨rfl, _, exec_hUpdate data s, contextOf_absorb s.eng data, rfl, ?_, s.eng.absorb_counts data⟩,
    _, rfl, by decide +kernel, by decide +kernel, by decide +kernel, by decide +kernel⟩
  rintro rfl
  exact s.eng.absorb_nil

end Sys2Proof.Machine
end

section
/-! PROOFS. The padded final block, byte by byte and as a number (42_hash_engine.md rule R103). -/

namespace Sys2Proof.Machine

theorem pack_replicate_zero_append {w : Nat} (n : Nat) (ds : List (BitVec w)) :
    pack (List.replicate n 0 ++ ds) = pack ds := by
  induction n with
  | zero => rfl
  | succ n ih => rw [List.replicate_succ, List.cons_append, pack_cons, ih]; simp

/-- Zeros that arrive last stand at the most significant end: they do not change the number. -/
theorem arrivedBlock_append_zeros (s : Bytes) (n : Nat) :
    arrivedBlock (s ++ List.replicate n 0) = arrivedBlock s := by
  rw [arrivedBlock, ofBytes, List.reverse_append, List.reverse_replicate, pack_replicate_zero_append]
  rfl

/-- The byte that arrives at place `i` weighs `256 ^ i`. -/
theorem pack_reverse (s : Bytes) :
    pack s.reverse = ((List.range s.length).map (fun i => (s.getD i 0).toNat * 256 ^ i)).sum := by
  induction s with
  | nil => rfl
  | cons b bs ih =>
    have hshift : pack bs.reverse * 256 =
        ((List.range bs.length).map (fun i => (bs.getD i 0).toNat * 256 ^ (i + 1))).sum := by
      rw [ih, ← List.sum_map_mul_right]
      simp only [pow_succ, mul_assoc]
    have hfirst : pack (b :: bs).reverse = b.toNat + pack bs.reverse * 256 := by
      rw [List.reverse_cons, pack_append, Nat.add_comm]
      simp [pack_cons]
    rw [hfirst, hshift, List.length_cons, List.range_succ_eq_map, List.map_cons, List.sum_cons, List.map_map]
    simp [Function.comp_def]

namespace Hash

/-- The zeros of the padding written out: 64 bytes in arrival order. -/
theorem paddedBlock_eq (pend : Bytes) :
    paddedBlock pend = arrivedBlock (pend ++ [0x01] ++ List.replicate (63 - pend.length) 0) :=
  (arrivedBlock_append_zeros _ _).symm

/-- Byte `63 - i` of the padded block is the byte at place `i` of the message bytes, the marker and the zeros. -/
theorem byteOf_paddedBlock {pend : Bytes} (hf : pend.length ≤ 63) {i : Nat} (hi : i < 64) :
    byteOf (paddedBlock pend) (63 - i) = (pend ++ [0x01] ++ List.replicate (63 - pend.length) 0).getD i 0 := by
  rw [paddedBlock_eq]
  exact byteOf_arrivedBlock (by simp; omega) hi

theorem byteOf_paddedBlock_message {pend : Bytes} (hf : pend.length ≤ 63) {i : Nat} (hi : i < pend.length) :
    byteOf (paddedBlock pend) (63 - i) = pend.getD i 0 := by
  rw [byteOf_paddedBlock hf (by omega), List.append_assoc, List.getD_append _ _ _ _ hi]

theorem byteOf_paddedBlock_marker {pend : Bytes} (hf : pend.length ≤ 63) :
    byteOf (paddedBlock pend) (63 - pend.length) = 0x01 := by
  rw [byteOf_paddedBlock hf (by omega), List.append_assoc, List.getD_append_right _ _ _ _ (by omega)]
  simp

theorem byteOf_paddedBlock_zero {pend : Bytes} (hf : pend.length ≤ 63) {i : Nat} (hi : i < 63 - pend.length) :
    byteOf (paddedBlock pend) i = 0x00 := by
  have hplace : i = 63 - (63 - i) := by omega
  rw [hplace, byteOf_paddedBlock hf (by omega), List.getD_append_right _ _ _ _ (by simp; omega)]
  simp

/-- The padded block as a number: the marker above the message bytes. -/
theorem toNat_paddedBlock {pend : Bytes} (hf : pend.length ≤ 63) :
    (paddedBlock pend).toNat =
      256 ^ pend.length + ((List.range pend.length).map (fun i => (pend.getD i 0).toNat * 256 ^ i)).sum := by
  have hlt : pack (pend ++ [0x01]).reverse < 2 ^ 512 :=
    calc pack (pend ++ [0x01]).reverse < 2 ^ (8 * (pend ++ [0x01]).reverse.length) := pack_lt _
      _ ≤ 2 ^ 512 := Nat.pow_le_pow_right (by decide) (by simp; omega)
  have hpow : 2 ^ (8 * pend.length) = 256 ^ pend.length := Nat.pow_mul 2 8 pend.length
  rw [paddedBlock, arrivedBlock, ofBytes, BitVec.toNat_ofNat, Nat.mod_eq_of_lt hlt, List.reverse_append,
    List.reverse_singleton, List.singleton_append, pack_cons, pack_reverse, List.length_reverse, hpow]
  simp

end Hash

end Sys2Proof.Machine
end

section
/-! PROOFS. The end of a message: the engine and the digest that `H_FINAL` leaves (42_hash_engine.md rules R103, R106). -/

namespace Sys2Proof.Machine

/-- A byte string in the order in which a digest is returned (20_memory.md rule R28). -/
theorem reverse_bytes512 (V : V512) : (bytes512 V).reverse = (List.range 64).map (fun i => byteOf V (63 - i)) := by
  apply List.ext_getElem (by simp)
  intro i h1 h2
  rw [List.getElem_reverse, getElem_bytes512, List.getElem_map, List.getElem_range, length_bytes512]

/-- The engine after `H_FINAL`: the hash context and the hash scratch are zero, the cipher scratch is as it was. -/
theorem Engine.finish_cleared (e : Engine) :
    e.finish.clearContext.clearPadded =
      { e with
        h := zero512, N := zero512, Sigma := zero512, pend := [], hs := zero512, Ki := zero512, st := zero512,
        m := zero512 } := by
  rw [Engine.finish_eq]
  rfl

/-- Settles O14: the padded block byte by byte, and the three compressions that `Engine.finish_eq` gives. -/
theorem hFinalReturnsDigestAndResets : Obligations.HFinalReturnsDigestAndResets := by
  refine ⟨rfl, ⟨_, rfl, by decide +kernel⟩, fun s hf => ⟨Hash.paddedBlock s.eng.pend,
    fun i hi => Hash.byteOf_paddedBlock_zero hf hi, Hash.byteOf_paddedBlock_marker hf,
    fun i hi => Hash.byteOf_paddedBlock_message hf hi, Hash.toNat_paddedBlock hf, ?_⟩⟩
  refine ⟨_, exec_hFinal s, rfl, ?_⟩
  rw [Engine.finish_cleared, reverse_bytes512, Engine.finish_eq]
  rfl

/-- An engine whose context is initial and whose scratch is zero is the engine after reset (10_state.md rule R22). -/
theorem Engine.eq_reset {e : Engine} (hctx : contextOf e = initialContext) (hcipher : CipherScratchZero e)
    (hhash : HashScratchZero e) : e = Engine.reset := by
  obtain ⟨h, N, Sigma, pend, KW, RK, ctr, CB, KS, n1, n2, hs, Ki, st, m⟩ := e
  obtain ⟨rfl, rfl, rfl, rfl⟩ := contextOf_eq_initialContext.mp hctx
  obtain ⟨rfl, rfl, rfl, rfl, rfl, rfl, rfl⟩ := hcipher
  obtain ⟨rfl, rfl, rfl, rfl⟩ := hhash
  rfl

/-- `H_FINAL` resets an engine whose cipher scratch is zero. -/
theorem Engine.finish_cleared_eq_reset {e : Engine} (hcipher : CipherScratchZero e) :
    e.finish.clearContext.clearPadded = Engine.reset := by
  rw [Engine.finish_cleared]
  exact Engine.eq_reset rfl hcipher ⟨rfl, rfl, rfl, rfl⟩

/-- A step leaves every engine that it is not sent to as it was. -/
theorem step_other_engine {s t : State} {c : Command} {rest : List Command} {k : Nat} (hc : s.cmds = c :: rest)
    (ht : step s = .next t) (hk : k ≠ c.target) : t.engines[k]? = s.engines[k]? := by
  obtain ⟨_, _, e', _, _, _, hset, _⟩ := step_command hc ht
  rw [hset, List.getElem?_set_ne hk.symm]

/-- The operation answers from every state and leaves the hash context as it was. -/
def KeepsContext (i : Instr) : Prop := ∀ s : State, ∃ t : State, exec i s = .next t ∧ contextOf t.eng = contextOf s.eng

theorem keepsContext_kExpand (key : Bytes) : KeepsContext (.kExpand key) := fun s => by
  by_cases hk : key.length = 32
  · exact ⟨_, exec_kExpand hk s, rfl⟩
  · exact ⟨_, exec_kExpand_error hk s, rfl⟩

theorem keepsContext_bEnc (block : W64) (subkeys : List W32) : KeepsContext (.bEnc block subkeys) := fun s => by
  by_cases hk : subkeys.length = 32
  · exact ⟨_, exec_bEnc hk block s, rfl⟩
  · exact ⟨_, exec_bEnc_error hk block s, rfl⟩

theorem keepsContext_ctrProc (data key : Bytes) (c : W64) : KeepsContext (.ctrProc data key c) := fun s => by
  by_cases hk : key.length = 32
  · exact ⟨_, exec_ctrProc hk data c s, rfl⟩
  · exact ⟨_, exec_ctrProc_error hk data c s, rfl⟩

theorem keepsContext_keyHex (text : Bytes) : KeepsContext (.keyHex text) := fun s => by
  by_cases hk : (stripHex text).length = 64
  · exact ⟨_, exec_keyHex hk s, rfl⟩
  · exact ⟨_, exec_keyHex_error hk s, rfl⟩

theorem keepsContext_ctrHex (text : Bytes) : KeepsContext (.ctrHex text) := fun s => by
  by_cases hk : 0 < (stripHex text).length ∧ (stripHex text).length ≤ 16
  · exact ⟨_, exec_ctrHex hk.1 hk.2 s, rfl⟩
  · exact ⟨_, exec_ctrHex_error hk s, rfl⟩

theorem keepsContext_digHex (d : V512) : KeepsContext (.digHex d) := fun s => ⟨_, exec_digHex d s, rfl⟩

/-- Settles O17: `H_FINAL` leaves the reset engine, a step writes the addressed engine only, and each operation of the other
paths keeps the context, whether it succeeds or fails. -/
theorem reuseAndIndependence : Obligations.ReuseAndIndependence := by
  refine ⟨fun s hcipher => ⟨_, exec_hFinal s, Engine.finish_cleared_eq_reset hcipher⟩,
    fun s t c rest k hc ht hk => step_other_engine hc ht hk, fun s key data text block c subkeys d i hi => ?_⟩
  have hkeeps : KeepsContext i := by
    simp only [List.mem_cons, List.not_mem_nil, or_false] at hi
    rcases hi with rfl | rfl | rfl | rfl | rfl | rfl
    · exact keepsContext_kExpand key
    · exact keepsContext_bEnc block subkeys
    · exact keepsContext_ctrProc data key c
    · exact keepsContext_keyHex text
    · exact keepsContext_ctrHex text
    · exact keepsContext_digHex d
  exact hkeeps s

end Sys2Proof.Machine
end

section
/-! PROOFS. The key words and the schedule of `K_EXPAND` (43_cipher_block.md rules R116, R117). -/

namespace Sys2Proof.Machine

/-- Word `j` of a byte string is the big-endian number of its bytes `4j` to `4j + 3` (20_memory.md rule R31). -/
theorem toWords_eq_map (s : Bytes) :
    toWords s = (List.range (s.length / 4)).map (fun j => be32 ((s.drop (4 * j)).take 4)) := by
  induction s using toWords.induct with
  | case1 a b c d rest ih =>
    have hlen : (a :: b :: c :: d :: rest).length / 4 = rest.length / 4 + 1 := by
      simp only [List.length_cons]
      omega
    rw [toWords, ih, hlen, List.range_succ_eq_map, List.map_cons, List.map_map]
    rfl
  | case2 s hs =>
    have hnil : toWords s = [] := toWords.eq_2 s hs
    have hlen := length_toWords s
    rw [hnil, List.length_nil] at hlen
    rw [hnil, ← hlen]
    rfl

namespace Cipher

/-- Subkey `i` of the schedule of the key words `KW 0` to `KW 7` (43_cipher_block.md rule R117). -/
def subkey (KW : Nat → W32) (i : Nat) : W32 := if i < 24 then KW (i % 8) else KW (31 - i)

theorem schedule_map_range (KW : Nat → W32) :
    schedule ((List.range 8).map KW) = (List.range 32).map (subkey KW) := rfl

/-- The schedule of a 32-byte key, word by word. -/
theorem schedule_keyWords {key : Bytes} (h : key.length = 32) :
    schedule (keyWords key) = (List.range 32).map (subkey fun j => be32 ((key.drop (4 * j)).take 4)) := by
  rw [keyWords, toWords_eq_map, h]
  exact schedule_map_range _

end Cipher

/-- `K_EXPAND` of a 32-byte key zeroes `KW` and `RK` and answers the subkeys in order. -/
theorem exec_kExpand_subkeys {key : Bytes} (h : key.length = 32) (s : State) :
    exec (.kExpand key) s = s.complete s.eng.clearSchedule
      ((List.range 32).flatMap fun i =>
        bytes32 (Cipher.subkey (fun j => be32 ((key.drop (4 * j)).take 4)) i)) := by
  rw [exec_kExpand h, Cipher.schedule_keyWords h, ofWords, List.flatMap_map]
  rfl

/-- Settles O18: the words of the key are those of `toWords_eq_map`, and eight words make the schedule in rule R117's order. -/
theorem kExpandReturnsSchedule : Obligations.KExpandReturnsSchedule := by
  refine ⟨fun key s => ⟨rfl, fun h => exec_kExpand_subkeys h s, fun h => exec_kExpand_error h s⟩, ?_⟩
  intro KEY KW s
  have hwords : Cipher.keyWords KEY = KW := by decide
  refine ⟨_, exec_kExpand rfl s, ?_⟩
  rw [hwords]
  rfl

end Sys2Proof.Machine
end

section
/-! PROOFS. Nibble substitution: a word as its eight nibbles, each through its own S-box (43_cipher_block.md rule R118). -/

namespace Sys2Proof.Machine

/-- Nibble `i` of a word, bits `4i + 3` to `4i`, is digit `7 - i` of its eight nibbles. -/
theorem getElem_nibbles (x : W32) {i : Nat} (hi : i < 8) :
    (unpack 4 8 x.toNat)[7 - i]'(by rw [length_unpack]; omega) = x.extractLsb' (4 * i) 4 := by
  have hplace : 8 - 1 - (7 - i) = i := by omega
  rw [getElem_unpack, hplace]
  apply BitVec.eq_of_toNat_eq
  rw [BitVec.toNat_ofNat, BitVec.extractLsb'_toNat, Nat.shiftRight_eq_div_pow]

/-- A word is its eight nibbles, most significant first. -/
theorem ofNat_pack_nibbles (x : W32) : BitVec.ofNat 32 (pack (unpack 4 8 x.toNat)) = x := by
  apply BitVec.eq_of_toNat_eq
  rw [pack_unpack, BitVec.toNat_ofNat]
  have := x.isLt
  omega

/-- Two words are equal when their nibbles are. -/
theorem eq_of_nibbles {x y : W32} (h : ∀ i < 8, x.extractLsb' (4 * i) 4 = y.extractLsb' (4 * i) 4) : x = y := by
  have hdigits : unpack 4 8 x.toNat = unpack 4 8 y.toNat := by
    apply List.ext_getElem (by rw [length_unpack, length_unpack])
    intro j hj _
    have hj8 : j < 8 := by rwa [length_unpack] at hj
    obtain ⟨i, hi, rfl⟩ : ∃ i < 8, j = 7 - i := ⟨7 - j, by omega, by omega⟩
    rw [getElem_nibbles x hi, getElem_nibbles y hi, h i hi]
  rw [← ofNat_pack_nibbles x, hdigits, ofNat_pack_nibbles]

/-- The eight nibbles of a word made of eight nibbles. -/
theorem nibbles_ofNat_pack {ds : List (BitVec 4)} (h : ds.length = 8) :
    unpack 4 8 (BitVec.ofNat 32 (pack ds)).toNat = ds := by
  have hlt := pack_lt ds
  rw [h] at hlt
  rw [BitVec.toNat_ofNat, Nat.mod_eq_of_lt hlt, unpack_eq_of_length h]

namespace Cipher

theorem nibbles_t (x : W32) :
    unpack 4 8 (t x).toNat = List.zipWith sboxAt SB.reverse (unpack 4 8 x.toNat) :=
  nibbles_ofNat_pack (by simp [SB])

theorem extractLsb'_t (x : W32) {i : Nat} (hi : i < 8) :
    (t x).extractLsb' (4 * i) 4 = sboxAt (SB.getD i 0) (x.extractLsb' (4 * i) 4) := by
  have hplace : SB.length - 1 - (7 - i) = i := by
    have hlen : SB.length = 8 := rfl
    omega
  have hrow : SB.reverse[7 - i]'(by simp [SB]; omega) = SB.getD i 0 := by
    rw [List.getElem_reverse]
    simp only [hplace, List.getD_eq_getElem SB 0 (show i < SB.length from hi)]
  simp only [← getElem_nibbles _ hi, nibbles_t, List.getElem_zipWith, hrow]

theorem sboxAt_injective : ∀ i < 8, Function.Injective (sboxAt (SB.getD i 0)) := by
  unfold Function.Injective
  decide +kernel

theorem t_injective : Function.Injective t := fun x y h =>
  eq_of_nibbles fun i hi => sboxAt_injective i hi <| by rw [← extractLsb'_t x hi, ← extractLsb'_t y hi, h]

end Cipher

/-- Settles O19: the nibbles go through one S-box each, and every S-box is a bijection. -/
theorem nibbleSubstitution : Obligations.NibbleSubstitution :=
  ⟨fun x _ hi => Cipher.extractLsb'_t x hi, bijective_of_injective Cipher.t_injective, by decide +kernel⟩

end Sys2Proof.Machine
end

section
/-! PROOFS. The round function: addition, nibble substitution, rotation (43_cipher_block.md rule R119). -/

namespace Sys2Proof.Machine

/-- Rotation left by 11 moves bit `j` to bit `(j + 11) mod 32` (43_cipher_block.md rule R119). -/
theorem getLsbD_rotateLeft_eleven (x : W32) {j : Nat} (hj : j < 32) :
    (x.rotateLeft 11).getLsbD ((j + 11) % 32) = x.getLsbD j := by
  rw [BitVec.getLsbD_rotateLeft]
  by_cases hwrap : j < 21
  · have hplace : (j + 11) % 32 = j + 11 := by omega
    have hlow : j + 11 < 32 := by omega
    simp [hplace, hlow]
  · have hplace : (j + 11) % 32 = j - 21 := by omega
    have hlow : j - 21 < 11 := by omega
    have hback : 21 + (j - 21) = j := by omega
    simp [hplace, hlow, hback]

namespace Cipher

theorem f_comm (k a : W32) : f k a = f a k := by rw [f, f, BitVec.add_comm]

end Cipher

/-- Settles O20: the rotation places each bit of the substituted sum, and the sum is symmetric. -/
theorem roundFunctionAddsSubstitutesRotates : Obligations.RoundFunctionAddsSubstitutesRotates :=
  ⟨fun k a _ hj => getLsbD_rotateLeft_eleven (Cipher.t (a + k)) hj, Cipher.f_comm, by decide +kernel⟩

end Sys2Proof.Machine
end

section
/-! PROOFS. The 32 rounds of `B_ENC` (43_cipher_block.md rules R120, R122). -/

namespace Sys2Proof.Machine

/-- The halves of a block are its two big-endian words (20_memory.md rule R31). -/
theorem bytes64_eq_halves (block : W64) :
    bytes64 block = bytes32 (firstHalf block) ++ bytes32 (secondHalf block) := by
  rw [← bytes64_joinHalves, joinHalves_halves]

theorem be32_take_bytes64 (block : W64) : be32 ((bytes64 block).take 4) = firstHalf block := by
  rw [bytes64_eq_halves, List.take_left' (length_bytes32 _), be32_bytes32]

theorem be32_drop_bytes64 (block : W64) : be32 ((bytes64 block).drop 4) = secondHalf block := by
  rw [bytes64_eq_halves, List.drop_left' (length_bytes32 _), be32_bytes32]

namespace Cipher

/-- The halves `(n1, n2)` before round `r`, for `r` from 0 to 31 (43_cipher_block.md rule R122). -/
def halvesBefore (rk : List W32) (block : W64) (r : Nat) : W32 × W32 :=
  (rk.take r).foldl round (firstHalf block, secondHalf block)

theorem halvesBefore_succ {rk : List W32} (block : W64) {r : Nat} (hr : r < rk.length) :
    halvesBefore rk block (r + 1) = round (halvesBefore rk block r) (rk.getD r 0) := by
  rw [halvesBefore, List.take_succ_eq_append_getElem hr, List.foldl_append, List.getD_eq_getElem rk 0 hr]
  rfl

/-- The encrypted block is the two halves after the last round, which does not swap them. -/
theorem bytes64_encryptBlock (rk : List W32) (block : W64) :
    bytes64 (encryptBlock rk block) =
      bytes32 ((halvesBefore rk block 31).1 ^^^ f (rk.getD 31 0) (halvesBefore rk block 31).2) ++
        bytes32 (halvesBefore rk block 31).2 :=
  bytes64_joinHalves _ _

end Cipher

/-- With 32 subkeys `B_ENC` answers with the bytes of the encrypted block. -/
theorem exec_bEnc_result {subkeys : List W32} {block : W64} {result : Bytes} (h : subkeys.length = 32)
    (hr : bytes64 (Cipher.encryptBlock subkeys block) = result) (s : State) :
    ∃ t : State, exec (.bEnc block subkeys) s = .next t ∧ t.resps = s.resps ++ [⟨s.number, .ok result⟩] := by
  rw [← hr]
  exact ⟨_, exec_bEnc h block s, rfl⟩

/-- Settles O21: `Cipher.halvesBefore` gives the halves before each round, and the core ends with the unswapped one. -/
theorem bEncRunsThirtyTwoRounds : Obligations.BEncRunsThirtyTwoRounds := by
  refine ⟨fun block subkeys s => ⟨rfl, fun h => ?_, fun h => exec_bEnc_error h block s⟩, ?_⟩
  · refine ⟨fun r => (Cipher.halvesBefore subkeys block r).1, fun r => (Cipher.halvesBefore subkeys block r).2,
      (be32_take_bytes64 block).symm, (be32_drop_bytes64 block).symm, fun r hr => ?_, ?_⟩
    · simp only [Cipher.halvesBefore_succ block (show r < subkeys.length by omega), Cipher.round, and_self]
    · rw [exec_bEnc h, Cipher.bytes64_encryptBlock]
      rfl
  · intro KW s
    have hkey : bytes64 (Cipher.encryptBlock (KW ++ KW ++ KW ++ KW.reverse) 0xfedcba9876543210) =
        [0x4e, 0xe9, 0x01, 0xe5, 0xc2, 0xd8, 0xca, 0x3d] := by decide +kernel
    have hzeros : bytes64 (Cipher.encryptBlock (List.replicate 32 0) 0) =
        [0x78, 0xb6, 0xbd, 0x4a, 0x81, 0x72, 0x66, 0x59] := by decide +kernel
    have hones : bytes64 (Cipher.encryptBlock (List.replicate 32 0xffffffff) 0xffffffffffffffff) =
        [0xeb, 0x81, 0xab, 0x2a, 0xcd, 0x2f, 0x88, 0xb5] := by decide +kernel
    obtain ⟨t, ht, htr⟩ := exec_bEnc_result rfl hkey s
    obtain ⟨u, hu, hur⟩ := exec_bEnc_result rfl hzeros s
    obtain ⟨v, hv, hvr⟩ := exec_bEnc_result rfl hones s
    exact ⟨t, u, v, ht, htr, hu, hur, hv, hvr⟩

end Sys2Proof.Machine
end

section
/-! PROOFS. `CTR_PROC` is its own inverse (44_counter_mode.md rules R132, R133). -/

namespace Sys2Proof.Machine

namespace Cipher

/-- The data bytes exclusive-or the keystream of a key and a counter (44_counter_mode.md rule R132). -/
def xorKeystream (key : Bytes) (c : W64) (data : Bytes) : Bytes :=
  (List.range data.length).map fun p => data.getD p 0 ^^^ keystreamByte key c p

@[simp] theorem length_xorKeystream (key : Bytes) (c : W64) (data : Bytes) :
    (xorKeystream key c data).length = data.length := by
  simp [xorKeystream]

theorem getElem_xorKeystream (key : Bytes) (c : W64) (data : Bytes) {p : Nat} (hp : p < data.length) :
    (xorKeystream key c data)[p]'(by simpa using hp) = data[p] ^^^ keystreamByte key c p := by
  simp only [xorKeystream, List.getElem_map, List.getElem_range, List.getD_eq_getElem data 0 hp]

/-- Each byte meets the same keystream byte twice, and the exclusive-or of a byte with itself is zero. -/
theorem xorKeystream_involutive (key : Bytes) (c : W64) : Function.Involutive (xorKeystream key c) := fun data => by
  apply List.ext_getElem (by simp)
  intro p _ hp
  rw [getElem_xorKeystream key c _ (by simpa using hp), getElem_xorKeystream key c data hp, BitVec.xor_assoc,
    BitVec.xor_self, BitVec.xor_zero]

end Cipher

/-- `CTR_PROC` with a 32-byte key answers with the data exclusive-or the keystream, whatever the state. -/
theorem exec_ctrProc_xorKeystream {key : Bytes} (h : key.length = 32) (data : Bytes) (c : W64) (s : State) :
    exec (.ctrProc data key c) s =
      s.complete ((s.eng.clearSchedule).clearHalves).clearCounter (Cipher.xorKeystream key c data) :=
  exec_ctrProc h data c s

/-- Settles O24: `CTR_PROC` answers with `Cipher.xorKeystream`, which does not depend on the state, and the second operation
undoes the first by `Cipher.xorKeystream_involutive`. -/
theorem ctrProcIsInvolution : Obligations.CtrProcIsInvolution := by
  intro data key c hk
  refine ⟨Cipher.xorKeystream key c data, Cipher.length_xorKeystream key c data, fun s => ?_⟩
  refine ⟨_, _, exec_ctrProc_xorKeystream hk data c s, rfl, exec_ctrProc_xorKeystream hk _ c _, ?_⟩
  rw [Cipher.xorKeystream_involutive key c data]
  rfl

end Sys2Proof.Machine
end

section
/-! PROOFS. The digits of a counter text as a number and as bytes (45_operand_format.md rule R142). -/

namespace Sys2Proof.Machine

/-- A digit string as the sum of its digits, each with its weight. -/
theorem pack_eq_sum {w : Nat} (ds : List (BitVec w)) :
    pack ds = ((List.range ds.length).map
      fun i => (ds.getD i 0).toNat * (2 ^ w) ^ (ds.length - 1 - i)).sum := by
  induction ds with
  | nil => rfl
  | cons d ds ih =>
    have htail (i : Nat) : ds.length + 1 - 1 - i.succ = ds.length - 1 - i := by omega
    rw [pack_cons, Nat.pow_mul, ih, List.length_cons, List.range_succ_eq_map, List.map_cons, List.sum_cons,
      List.map_map]
    simp only [Function.comp_def, htail]
    rfl

@[simp] theorem length_pairDigits : ∀ ds : List (BitVec 4), (pairDigits ds).length = ds.length / 2
  | [] => rfl
  | [_] => by simp [pairDigits]
  | a :: b :: rest => by
    rw [pairDigits, List.length_cons, length_pairDigits rest, List.length_cons, List.length_cons]
    omega

/-- Pairing an even number of digits into bytes does not change the number they write. -/
theorem pack_pairDigits : ∀ {ds : List (BitVec 4)}, 2 ∣ ds.length → pack (pairDigits ds) = pack ds
  | [], _ => rfl
  | [_], h => by simp at h
  | a :: b :: rest, h => by
    have hrest : 2 ∣ rest.length := by simpa [Nat.add_assoc] using h
    have hbits : 8 * (rest.length / 2) = 4 * rest.length := by omega
    have hbyte : 16 * a.toNat + b.toNat < 2 ^ 8 := by have := a.isLt; have := b.isLt; omega
    rw [pairDigits, pack_cons, pack_pairDigits hrest, length_pairDigits, hbits, BitVec.toNat_ofNat,
      Nat.mod_eq_of_lt hbyte, pack_cons, pack_cons, List.length_cons, Nat.mul_add, Nat.pow_add]
    ring

theorem pack_digits_lt (ds : List (BitVec 4)) : pack ds < 16 ^ ds.length :=
  Nat.lt_of_lt_of_eq (pack_lt ds) (Nat.pow_mul 2 4 ds.length)

/-- Up to 16 digits fit the 64 bits of a counter. -/
theorem toNat_digitsValue {ds : List (BitVec 4)} (h : ds.length ≤ 16) : (digitsValue ds).toNat = pack ds := by
  have hlt : pack ds < 2 ^ 64 :=
    calc pack ds < 16 ^ ds.length := pack_digits_lt ds
      _ ≤ 16 ^ 16 := Nat.pow_le_pow_right (by decide) h
  rw [digitsValue, BitVec.toNat_ofNat, Nat.mod_eq_of_lt hlt]

/-- The bytes of a counter are its digits padded on the left to 16 and paired: both write the same number. -/
theorem bytes64_digitsValue {ds : List (BitVec 4)} (h : ds.length ≤ 16) :
    bytes64 (digitsValue ds) = pairDigits (List.replicate (16 - ds.length) 0 ++ ds) := by
  have hlen : (List.replicate (16 - ds.length) 0 ++ ds).length = 16 := by simp; omega
  have hnum : pack (pairDigits (List.replicate (16 - ds.length) 0 ++ ds)) = pack ds := by
    rw [pack_pairDigits (by rw [hlen]; decide), pack_replicate_zero_append]
  rw [bytes64, toNat_digitsValue h, ← hnum, unpack_eq_of_length (by rw [length_pairDigits, hlen])]

/-- `CTR_HEX` answers with the number of the digits. -/
theorem exec_ctrHex_value {text : Bytes} {ctr : W64}
    (h : CounterTextValid text ∧ digitsValue (stripHex text) = ctr) (s : State) :
    exec (.ctrHex text) s = s.complete s.eng (bytes64 ctr) := by
  obtain ⟨⟨h0, h16⟩, rfl⟩ := h
  exact exec_ctrHex h0 h16 s

/-- Settles O29: the counter is `digitsValue` of the digits, which `pack_eq_sum` writes as a weighted sum and
`bytes64_digitsValue` as padded pairs. -/
theorem ctrHexParsesUpToSixteenDigits : Obligations.CtrHexParsesUpToSixteenDigits := by
  refine ⟨fun text s => ⟨rfl, fun ⟨h0, h16⟩ => ?_, fun h => exec_ctrHex_error (by omega) s⟩,
    fun s p hp => exec_ctrHex_value ?_ s, fun s text ht => exec_ctrHex_error ?_ s⟩
  · refine ⟨digitsValue (stripHex text), ?_, ?_, bytes64_digitsValue h16, exec_ctrHex h0 h16 s⟩
    · rw [toNat_digitsValue h16]
      exact pack_eq_sum (stripHex text)
    · rw [toNat_digitsValue h16]
      exact pack_digits_lt (stripHex text)
  · revert p
    decide
  · revert text
    decide

end Sys2Proof.Machine
end

section
/-! PROOFS. The text of a digest, character by character and read back (45_operand_format.md rule R144). -/

namespace Sys2Proof.Machine

theorem hexVal_hexChars : ∀ n < 16, hexVal (hexChars.getD n 0) = some (BitVec.ofNat 4 n) := by decide

@[simp] theorem hexText_nil : hexText [] = [] := rfl

theorem hexText_cons (b : Byte) (s : Bytes) :
    hexText (b :: s) = hexChars.getD (b.toNat / 16) 0 :: hexChars.getD (b.toNat % 16) 0 :: hexText s := rfl

@[simp] theorem length_hexText (s : Bytes) : (hexText s).length = 2 * s.length := by
  induction s with
  | nil => rfl
  | cons b s ih =>
    rw [hexText_cons, List.length_cons, List.length_cons, ih, List.length_cons]
    omega

/-- Characters `2i` and `2i + 1` are the high and the low nibble of byte `i`. -/
theorem getD_hexText {s : Bytes} {i : Nat} (hi : i < s.length) :
    (hexText s).getD (2 * i) 0 = hexChars.getD (s[i].toNat / 16) 0 ∧
      (hexText s).getD (2 * i + 1) 0 = hexChars.getD (s[i].toNat % 16) 0 := by
  induction s generalizing i with
  | nil => simp at hi
  | cons b s ih =>
    cases i with
    | zero => exact ⟨rfl, rfl⟩
    | succ i => exact ih (i := i) (by simpa using hi)

/-- Every character of a text comes from the table of the 16 digits. -/
theorem mem_hexChars_of_mem_hexText {s : Bytes} {c : Byte} (hc : c ∈ hexText s) : c ∈ hexChars := by
  have htable : ∀ n < 16, hexChars.getD n 0 ∈ hexChars := by decide
  induction s with
  | nil => simp at hc
  | cons b s ih =>
    have := b.isLt
    rw [hexText_cons, List.mem_cons, List.mem_cons] at hc
    obtain rfl | rfl | hc := hc
    · exact htable _ (by omega)
    · exact htable _ (by omega)
    · exact ih hc

theorem hexChars_range :
    ∀ c ∈ hexChars, (0x30 ≤ c.toNat ∧ c.toNat ≤ 0x39) ∨ (0x41 ≤ c.toNat ∧ c.toNat ≤ 0x46) := by decide

/-- The digits of a text are the nibbles of its bytes. -/
theorem stripHex_hexText_cons (b : Byte) (s : Bytes) :
    stripHex (hexText (b :: s)) =
      BitVec.ofNat 4 (b.toNat / 16) :: BitVec.ofNat 4 (b.toNat % 16) :: stripHex (hexText s) := by
  have := b.isLt
  rw [hexText_cons, stripHex, List.filterMap_cons_some (hexVal_hexChars _ (by omega)),
    List.filterMap_cons_some (hexVal_hexChars _ (by omega)), stripHex]

theorem length_stripHex_hexText (s : Bytes) : (stripHex (hexText s)).length = 2 * s.length := by
  induction s with
  | nil => rfl
  | cons b s ih =>
    rw [stripHex_hexText_cons, List.length_cons, List.length_cons, ih, List.length_cons]
    omega

/-- A text parses back to the bytes it was printed from. -/
theorem pairDigits_stripHex_hexText (s : Bytes) : pairDigits (stripHex (hexText s)) = s := by
  induction s with
  | nil => rfl
  | cons b s ih =>
    have hbyte : BitVec.ofNat 8
        (16 * (BitVec.ofNat 4 (b.toNat / 16)).toNat + (BitVec.ofNat 4 (b.toNat % 16)).toNat) = b := by
      apply BitVec.eq_of_toNat_eq
      simp only [BitVec.toNat_ofNat]
      have := b.isLt
      omega
    rw [stripHex_hexText_cons, pairDigits, hbyte, ih]

/-- Settles O30: `DIG_HEX` answers with `hexText` of the digest's bytes, and each pair of characters is the two nibbles of
one byte. -/
theorem digHexPrintsUppercaseText : Obligations.DigHexPrintsUppercaseText := by
  refine ⟨fun d s => ⟨rfl, hexText (bytes512 d), by simp, fun i hi => ?_,
    fun c hc => hexChars_range c (mem_hexChars_of_mem_hexText hc), by simp [length_stripHex_hexText],
    pairDigits_stripHex_hexText _, exec_digHex d s⟩, fun s => ⟨_, exec_digHex _ s, ?_⟩⟩
  · have hlen : i < (bytes512 d).length := by simpa using hi
    rw [← getElem_bytes512 d i hlen]
    exact getD_hexText hlen
  · refine congrArg (fun out => s.resps ++ [⟨s.number, .ok out⟩]) ?_
    decide +kernel

end Sys2Proof.Machine
end

section
/-! PROOFS. An operation completes or raises, and one that raises has changed nothing (60_exceptions.md rules R156, R157). -/

namespace Sys2Proof.Machine

/-- Every operation ends in one of two ways: with status OK and a result, or with an error (00_scope.md rule R7). -/
theorem exec_completes_or_raises (i : Instr) (s : State) :
    (∃ e result, exec i s = s.complete e result) ∨ ∃ k, exec i s = s.raise k := by
  cases i with
  | hInit => exact .inl ⟨_, _, exec_hInit s⟩
  | hUpdate data => exact .inl ⟨_, _, exec_hUpdate data s⟩
  | hFinal => exact .inl ⟨_, _, exec_hFinal s⟩
  | kExpand key =>
    by_cases hk : key.length = 32
    · exact .inl ⟨_, _, exec_kExpand hk s⟩
    · exact .inr ⟨_, exec_kExpand_error hk s⟩
  | bEnc block subkeys =>
    by_cases hk : subkeys.length = 32
    · exact .inl ⟨_, _, exec_bEnc hk block s⟩
    · exact .inr ⟨_, exec_bEnc_error hk block s⟩
  | ctrProc data key c =>
    by_cases hk : key.length = 32
    · exact .inl ⟨_, _, exec_ctrProc hk data c s⟩
    · exact .inr ⟨_, exec_ctrProc_error hk data c s⟩
  | keyHex text =>
    by_cases hk : (stripHex text).length = 64
    · exact .inl ⟨_, _, exec_keyHex hk s⟩
    · exact .inr ⟨_, exec_keyHex_error hk s⟩
  | ctrHex text =>
    by_cases hk : 0 < (stripHex text).length ∧ (stripHex text).length ≤ 16
    · exact .inl ⟨_, _, exec_ctrHex hk.1 hk.2 s⟩
    · exact .inr ⟨_, exec_ctrHex_error hk s⟩
  | digHex d => exact .inl ⟨_, _, exec_digHex d s⟩

/-- An operation that completes has not answered an error. -/
theorem State.complete_resps_ne_err {s t : State} {e : Engine} {result : Bytes} (h : s.complete e result = .next t)
    (k : ErrorKind) : t.resps ≠ s.resps ++ [⟨s.number, .err k⟩] := by
  obtain rfl := (State.complete_eq_next s e result t).mp h
  simp

/-- An operation that answers an error ended by raising it: the response is all that is new. -/
theorem exec_error_eq {i : Instr} {s t : State} {k : ErrorKind} (h : exec i s = .next t)
    (hk : t.resps = s.resps ++ [⟨s.number, .err k⟩]) :
    t = { s with resps := s.resps ++ [⟨s.number, .err k⟩] } := by
  obtain ⟨e, result, hok⟩ | ⟨k', herr⟩ := exec_completes_or_raises i s
  · exact absurd hk (State.complete_resps_ne_err (hok.symm.trans h) k)
  · have ht := (State.raise_eq_next s k' t).mp (herr.symm.trans h)
    rw [← hk, ht]

/-- The frame of an error is its code and an empty BYTES field (30_encoding.md rule R52). -/
theorem Response.frame_err (k : ErrorKind) : (Response.err k).frame = [k.code, 0, 0, 0, 0, 0, 0, 0, 0] := rfl

/-- Settles O31: an operation that answers an error has raised it, and `State.raise` leaves every engine as it was. -/
theorem failedOperationChangesNothing : Obligations.FailedOperationChangesNothing := by
  intro i s t k h hk
  obtain rfl := exec_error_eq h hk
  exact ⟨rfl, id, id, Response.frame_err k⟩

end Sys2Proof.Machine
end

section
/-! PROOFS. The command frame: the decoder reads back what the encoder writes, and reads nothing else (30_encoding.md
sections 3 to 5). -/

namespace Sys2Proof

open Sys2Proof.Machine

/-! ### Each format, read from the fields of a command -/

theorem readFB_bytesField {ml : Option Nat} (mk : Bytes → Instr) {x : Bytes} (h : BytesFit ml x.length) (r : Bytes) :
    readFB ml mk (bytesField x ++ r) = .ok (mk x, r) := by
  unfold readFB
  rw [readBytes_bytesField h]

theorem readFD_bytes512 (d : V512) (r : Bytes) : readFD (bytes512 d ++ r) = .ok (.digHex d, r) := by
  unfold readFD
  rw [takeBytes_append_of_length (length_bytes512 d)]
  simp only [ofBytes_bytes512]

theorem readFE_fields {ml : Option Nat} (block : W64) {ws : List W32} (h : WordsFit ml ws.length) (r : Bytes) :
    readFE ml (bytes64 block ++ (wordsField ws ++ r)) = .ok (.bEnc block ws, r) := by
  unfold readFE
  rw [readW64_bytes64]
  simp only [readWords_wordsField h]

theorem readFP_fields {ml : Option Nat} {data key : Bytes} (hd : BytesFit ml data.length) (hk : BytesFit ml key.length)
    (ctr : W64) (r : Bytes) :
    readFP ml (bytesField data ++ (bytesField key ++ (bytes64 ctr ++ r))) = .ok (.ctrProc data key ctr, r) := by
  unfold readFP
  rw [readBytes_bytesField hd]
  simp only [readBytes_bytesField hk, readW64_bytes64]

/-- A command at the front of a byte string is read back, and what follows it is left. -/
theorem readCommand_encode_append {ml : Option Nat} {i : Instr} (h : WellFormed ml i) (r : Bytes) :
    readCommand ml (encode i ++ r) = .ok (i, r) := by
  cases i with
  | hInit => rfl
  | hUpdate data => exact readFB_bytesField .hUpdate h r
  | hFinal => rfl
  | kExpand key => exact readFB_bytesField .kExpand h r
  | bEnc block subkeys =>
    have hread := readFE_fields block h r
    rwa [← List.append_assoc] at hread
  | ctrProc data key ctr =>
    have hread := readFP_fields h.1 h.2 ctr r
    rwa [← List.append_assoc, ← List.append_assoc] at hread
  | keyHex text => exact readFB_bytesField .keyHex h r
  | ctrHex text => exact readFB_bytesField .ctrHex h r
  | digHex d => exact readFD_bytes512 d r

/-- A frame decodes to a command exactly when reading the command leaves nothing (30_encoding.md rule R55). -/
theorem decode_eq_ok {ml : Option Nat} {f : Bytes} {i : Instr} :
    decode ml f = .ok i ↔ readCommand ml f = .ok (i, []) := by
  unfold decode
  split
  · next e he => simp [he]
  · next j hj => simp [hj]
  · next j b bs hj => simp [hj]

/-- Settles O43: reading the encoding of a command leaves nothing. -/
theorem decodeOfEncode : Obligations.DecodeOfEncode := by
  intro ml i h
  have hread := readCommand_encode_append h []
  rwa [List.append_nil, ← decode_eq_ok] at hread

/-! ### Each format, as the only byte strings that it reads -/

theorem readFB_eq_ok {ml : Option Nat} {mk : Bytes → Instr} {f r : Bytes} {i : Instr}
    (h : readFB ml mk f = .ok (i, r)) :
    ∃ x, i = mk x ∧ f = bytesField x ++ r ∧ BytesFit ml x.length := by
  unfold readFB at h
  split at h
  · cases h
  · next x rest hx =>
    cases h
    exact ⟨x, rfl, readBytes_eq_ok hx⟩

theorem readFD_eq_ok {f r : Bytes} {i : Instr} (h : readFD f = .ok (i, r)) :
    ∃ d, i = .digHex d ∧ f = bytes512 d ++ r := by
  unfold readFD at h
  split at h
  · cases h
  · next b rest hb =>
    cases h
    obtain ⟨rfl, hlen⟩ := takeBytes_eq_ok hb
    exact ⟨_, rfl, by rw [bytes512_ofBytes hlen]⟩

theorem readFE_eq_ok {ml : Option Nat} {f r : Bytes} {i : Instr} (h : readFE ml f = .ok (i, r)) :
    ∃ block ws, i = .bEnc block ws ∧ f = bytes64 block ++ (wordsField ws ++ r) ∧ WordsFit ml ws.length := by
  unfold readFE at h
  split at h
  · cases h
  · next block rest hblock =>
    split at h
    · cases h
    · next ws rest' hws =>
      cases h
      obtain rfl := readW64_eq_ok hblock
      obtain ⟨rfl, hfit⟩ := readWords_eq_ok hws
      exact ⟨block, ws, rfl, rfl, hfit⟩

theorem readFP_eq_ok {ml : Option Nat} {f r : Bytes} {i : Instr} (h : readFP ml f = .ok (i, r)) :
    ∃ data key ctr, i = .ctrProc data key ctr ∧ f = bytesField data ++ (bytesField key ++ (bytes64 ctr ++ r)) ∧
      BytesFit ml data.length ∧ BytesFit ml key.length := by
  unfold readFP at h
  split at h
  · cases h
  · next data rest hdata =>
    split at h
    · cases h
    · next key rest' hkey =>
      split at h
      · cases h
      · next ctr rest'' hctr =>
        cases h
        obtain ⟨rfl, hd⟩ := readBytes_eq_ok hdata
        obtain ⟨rfl, hk⟩ := readBytes_eq_ok hkey
        obtain rfl := readW64_eq_ok hctr
        exact ⟨data, key, ctr, rfl, rfl, hd, hk⟩

/-- A command that is read stood encoded at the front, and a frame can carry it. -/
theorem readCommand_eq_ok {ml : Option Nat} {f r : Bytes} {i : Instr} (h : readCommand ml f = .ok (i, r)) :
    f = encode i ++ r ∧ WellFormed ml i := by
  unfold readCommand at h
  split at h
  · cases h
  · next op f =>
    have opcode {b : Byte} (hb : op.toNat = b.toNat) : op = b := BitVec.eq_of_toNat_eq hb
    split at h
    · next hop =>
      cases h
      exact ⟨by rw [opcode (b := 0x01) hop]; rfl, trivial⟩
    · next hop =>
      obtain ⟨x, rfl, rfl, hfit⟩ := readFB_eq_ok h
      exact ⟨by rw [opcode (b := 0x02) hop]; rfl, hfit⟩
    · next hop =>
      cases h
      exact ⟨by rw [opcode (b := 0x03) hop]; rfl, trivial⟩
    · next hop =>
      obtain ⟨x, rfl, rfl, hfit⟩ := readFB_eq_ok h
      exact ⟨by rw [opcode (b := 0x10) hop]; rfl, hfit⟩
    · next hop =>
      obtain ⟨block, ws, rfl, rfl, hfit⟩ := readFE_eq_ok h
      exact ⟨by rw [opcode (b := 0x11) hop, ← List.append_assoc]; rfl, hfit⟩
    · next hop =>
      obtain ⟨data, key, ctr, rfl, rfl, hfit⟩ := readFP_eq_ok h
      exact ⟨by rw [opcode (b := 0x20) hop, ← List.append_assoc, ← List.append_assoc]; rfl, hfit⟩
    · next hop =>
      obtain ⟨x, rfl, rfl, hfit⟩ := readFB_eq_ok h
      exact ⟨by rw [opcode (b := 0x30) hop]; rfl, hfit⟩
    · next hop =>
      obtain ⟨x, rfl, rfl, hfit⟩ := readFB_eq_ok h
      exact ⟨by rw [opcode (b := 0x31) hop]; rfl, hfit⟩
    · next hop =>
      obtain ⟨d, rfl, rfl⟩ := readFD_eq_ok h
      exact ⟨by rw [opcode (b := 0x32) hop]; rfl, trivial⟩
    · cases h

/-- Settles O44: what is read whole is the encoding with nothing after it. -/
theorem decodedFrameIsItsEncoding : Obligations.DecodedFrameIsItsEncoding := by
  intro ml f i h
  have hread := readCommand_eq_ok (decode_eq_ok.mp h)
  rwa [List.append_nil] at hread

/-! ### Frames that are refused -/

/-- A frame whose command cannot be read is refused under the reader's reason. -/
theorem decode_eq_error {ml : Option Nat} {f : Bytes} {e : DecodeError} (h : readCommand ml f = .error e) :
    decode ml f = .error e := by
  unfold decode
  rw [h]

/-- An operation for each opcode of the map (30_encoding.md rule R54). -/
def opcodeExamples : List Instr :=
  [.hInit, .hUpdate [], .hFinal, .kExpand [], .bEnc 0 [], .ctrProc [] [] 0, .keyHex [], .ctrHex [], .digHex 0]

/-- Settles O45: the reader's cases are the nine opcodes of the map. -/
theorem reservedOpcodesAreRefused : Obligations.ReservedOpcodesAreRefused := by
  intro ml op rest
  refine ⟨fun hop => decode_eq_error ?_, fun hop => ?_⟩
  · have opcode {b : Byte} (hb : op.toNat = b.toNat) : op = b := BitVec.eq_of_toNat_eq hb
    simp only [List.mem_cons, List.not_mem_nil, or_false, not_or] at hop
    obtain ⟨h01, h02, h03, h10, h11, h20, h30, h31, h32⟩ := hop
    simp only [readCommand]
    split
    · next h => exact (h01 (opcode h)).elim
    · next h => exact (h02 (opcode h)).elim
    · next h => exact (h03 (opcode h)).elim
    · next h => exact (h10 (opcode h)).elim
    · next h => exact (h11 (opcode h)).elim
    · next h => exact (h20 (opcode h)).elim
    · next h => exact (h30 (opcode h)).elim
    · next h => exact (h31 (opcode h)).elim
    · next h => exact (h32 (opcode h)).elim
    · rfl
  · obtain ⟨i, _, hi⟩ : ∃ i ∈ opcodeExamples, opcodeOf i = op := by
      have hmap : opcodeExamples.map opcodeOf = [0x01, 0x02, 0x03, 0x10, 0x11, 0x20, 0x30, 0x31, 0x32] := rfl
      rwa [← hmap, List.mem_map] at hop
    exact ⟨i, hi⟩

theorem not_withinMax_some {m n : Nat} (h : m < n) : ¬ WithinMax (some m) n := by simpa [WithinMax] using h

theorem readBytes_overMax {ml : Option Nat} {n : Nat} (hmax : ¬ WithinMax ml n) (hn : n < 2 ^ 64) (r : Bytes) :
    readBytes ml (lenField n ++ r) = .error .overMaxLen := by
  unfold readBytes
  rw [readLen_lenField hn]
  exact if_neg hmax

theorem readWords_overMax {ml : Option Nat} {c : Nat} (hmax : ¬ WithinMax ml (4 * c)) (hc : c < 2 ^ 64) (r : Bytes) :
    readWords ml (lenField c ++ r) = .error .overMaxLen := by
  unfold readWords
  rw [readLen_lenField hc]
  exact if_neg hmax

theorem readFB_error {ml : Option Nat} (mk : Bytes → Instr) {f : Bytes} {e : DecodeError}
    (h : readBytes ml f = .error e) :
    readFB ml mk f = .error e := by
  unfold readFB
  rw [h]

theorem readFE_words_error {ml : Option Nat} {block f : Bytes} {e : DecodeError} (hb : block.length = 8)
    (h : readWords ml f = .error e) : readFE ml (block ++ f) = .error e := by
  unfold readFE
  rw [← bytes64_be64 hb, readW64_bytes64]
  simp only [h]

theorem readFP_data_error {ml : Option Nat} {f : Bytes} {e : DecodeError} (h : readBytes ml f = .error e) :
    readFP ml f = .error e := by
  unfold readFP
  rw [h]

theorem readFP_key_error {ml : Option Nat} {data f : Bytes} {e : DecodeError} (hd : BytesFit ml data.length)
    (h : readBytes ml f = .error e) : readFP ml (bytesField data ++ f) = .error e := by
  unfold readFP
  rw [readBytes_bytesField hd]
  simp only [h]

/-- Settles O46: a length field is compared with MAXLEN as soon as it is read, and each format passes the refusal on. -/
theorem lengthOverMaxIsRefused : Obligations.LengthOverMaxIsRefused := by
  intro m n data block rest hmn hn hdata hblock
  have hover : readBytes (some m) (lenField n ++ rest) = .error .overMaxLen :=
    readBytes_overMax (not_withinMax_some hmn) hn rest
  refine ⟨fun op hop => decode_eq_error ?_, decode_eq_error ?_, fun words hwords hlt => decode_eq_error ?_⟩
  · simp only [List.mem_cons, List.not_mem_nil, or_false] at hop
    obtain rfl | rfl | rfl | rfl | rfl := hop
    · exact readFB_error .hUpdate hover
    · exact readFB_error .kExpand hover
    · exact readFP_data_error hover
    · exact readFB_error .keyHex hover
    · exact readFB_error .ctrHex hover
  · have hfit : BytesFit (some m) data.length := ⟨by omega, by simpa [WithinMax] using hdata⟩
    have hread := readFP_key_error hfit hover
    rw [bytesField, List.append_assoc] at hread
    exact hread
  · exact readFE_words_error hblock (readWords_overMax (not_withinMax_some hwords) hlt rest)

/-- Settles O47: the decoder run on each frame. -/
theorem exampleFramesDecode : Obligations.ExampleFramesDecode := by
  unfold Obligations.ExampleFramesDecode
  decide

end Sys2Proof
end

section
/-! PROOFS. What an operation leaves in the addressed engine, and the invariant of every engine (10_state.md sections 2, 3,
6 and 7). -/

namespace Sys2Proof.Machine

/-- The addressed engine after an operation that does not raise. -/
def Engine.after (i : Instr) (e : Engine) : Engine :=
  match i with
  | .hInit => e.clearContext
  | .hUpdate data => e.absorb data
  | .hFinal => e.finish.clearContext.clearPadded
  | .kExpand _ => e.clearSchedule
  | .bEnc _ _ => { e with RK := Vector.replicate 32 0, n1 := 0, n2 := 0 }
  | .ctrProc _ _ _ => e.clearSchedule.clearHalves.clearCounter
  | .keyHex _ => e
  | .ctrHex _ => e
  | .digHex _ => e

/-- An operation completes with `Engine.after`, or raises an error. -/
theorem exec_after_or_raises (i : Instr) (s : State) :
    (∃ result, exec i s = s.complete (s.eng.after i) result) ∨ ∃ k, exec i s = s.raise k := by
  cases i with
  | hInit => exact .inl ⟨_, exec_hInit s⟩
  | hUpdate data => exact .inl ⟨_, exec_hUpdate data s⟩
  | hFinal => exact .inl ⟨_, exec_hFinal s⟩
  | kExpand key =>
    by_cases hk : key.length = 32
    · exact .inl ⟨_, exec_kExpand hk s⟩
    · exact .inr ⟨_, exec_kExpand_error hk s⟩
  | bEnc block subkeys =>
    by_cases hk : subkeys.length = 32
    · exact .inl ⟨_, exec_bEnc hk block s⟩
    · exact .inr ⟨_, exec_bEnc_error hk block s⟩
  | ctrProc data key c =>
    by_cases hk : key.length = 32
    · exact .inl ⟨_, exec_ctrProc hk data c s⟩
    · exact .inr ⟨_, exec_ctrProc_error hk data c s⟩
  | keyHex text =>
    by_cases hk : (stripHex text).length = 64
    · exact .inl ⟨_, exec_keyHex hk s⟩
    · exact .inr ⟨_, exec_keyHex_error hk s⟩
  | ctrHex text =>
    by_cases hk : 0 < (stripHex text).length ∧ (stripHex text).length ≤ 16
    · exact .inl ⟨_, exec_ctrHex hk.1 hk.2 s⟩
    · exact .inr ⟨_, exec_ctrHex_error hk s⟩
  | digHex d => exact .inl ⟨_, exec_digHex d s⟩

/-- The addressed engine after any operation: `Engine.after`, or the engine as it was. -/
theorem exec_eng {i : Instr} {s t : State} (h : exec i s = .next t) : t.eng = s.eng.after i ∨ t.eng = s.eng := by
  obtain ⟨result, hok⟩ | ⟨k, herr⟩ := exec_after_or_raises i s
  · rw [hok, State.complete_eq_next] at h
    exact .inl (by rw [h])
  · rw [herr, State.raise_eq_next] at h
    exact .inr (by rw [h])

/-- `Engine.absorb_frame` as an equation. -/
theorem Engine.absorb_eq_self_off (e : Engine) (data : Bytes) :
    e.absorb data = { e with
      h := (e.absorb data).h, N := (e.absorb data).N, Sigma := (e.absorb data).Sigma, pend := (e.absorb data).pend,
      hs := (e.absorb data).hs, Ki := (e.absorb data).Ki, st := (e.absorb data).st } := by
  obtain ⟨hKW, hRK, hctr, hCB, hKS, hn1, hn2, hm⟩ := e.absorb_frame data
  rw [← hKW, ← hRK, ← hctr, ← hCB, ← hKS, ← hn1, ← hn2, ← hm]

/-- Settles O37: each row of the table holds of `Engine.after` and of the unchanged engine. -/
theorem operationFrames : Obligations.OperationFrames := by
  intro i s t h
  have heng := exec_eng h
  obtain ⟨e, r, rfl⟩ := exec_next_shape h
  refine ⟨rfl, rfl, rfl, rfl, ?_⟩
  obtain rfl | rfl : e = s.eng.after i ∨ e = s.eng := heng
  · cases i with
    | hInit => rfl
    | hUpdate data => exact s.eng.absorb_eq_self_off data
    | hFinal => exact s.eng.finish_cleared
    | kExpand key => rfl
    | bEnc block subkeys => rfl
    | ctrProc data key c => rfl
    | keyHex text => rfl
    | ctrHex text => rfl
    | digHex d => rfl
  · cases i <;> rfl

/-! ### The invariant -/

/-- No bit counted is a whole number of blocks. -/
theorem wholeBlocks_of_eq_zero {N : V512} (h : N = zero512) : N.toNat % 512 = 0 := by
  simp only [h, BitVec.toNat_zero, Nat.zero_mod]

theorem engineInv_reset : EngineInv Engine.reset :=
  ⟨Nat.zero_le 63, wholeBlocks_of_eq_zero rfl, ⟨rfl, rfl, rfl, rfl, rfl, rfl, rfl⟩, rfl, rfl, rfl, rfl⟩

theorem engineInv_absorbByte {e : Engine} (h : EngineInv e) (b : Byte) : EngineInv (e.absorbByte b) := by
  obtain ⟨hfill, hN, ⟨hKW, hRK, hctr, hCB, hKS, hn1, hn2⟩, hhs, hKi, hst, hm⟩ := h
  by_cases hf : e.pend.length + 1 = 64
  · rw [Engine.absorbByte_of_eq _ _ hf, Engine.absorbBlock_eq]
    exact ⟨Nat.zero_le 63, (Hash.ADD512I_block_mod e.N).trans hN, ⟨hKW, hRK, hctr, hCB, hKS, hn1, hn2⟩, rfl,
      rfl, rfl, hm⟩
  · have hroom : (e.pend ++ [b]).length ≤ 63 := by
      rw [List.length_append, List.length_singleton]
      omega
    rw [Engine.absorbByte_of_ne _ _ hf]
    exact ⟨hroom, hN, ⟨hKW, hRK, hctr, hCB, hKS, hn1, hn2⟩, hhs, hKi, hst, hm⟩

theorem engineInv_absorb {e : Engine} (h : EngineInv e) (data : Bytes) : EngineInv (e.absorb data) := by
  induction data generalizing e with
  | nil => exact h
  | cons b bs ih => exact ih (engineInv_absorbByte h b)

theorem engineInv_after {e : Engine} (h : EngineInv e) (i : Instr) : EngineInv (e.after i) := by
  have hinv := h
  obtain ⟨hfill, hN, ⟨hKW, hRK, hctr, hCB, hKS, hn1, hn2⟩, hhash⟩ := h
  cases i with
  | hInit => exact ⟨Nat.zero_le 63, wholeBlocks_of_eq_zero rfl, ⟨hKW, hRK, hctr, hCB, hKS, hn1, hn2⟩, hhash⟩
  | hUpdate data => exact engineInv_absorb hinv data
  | hFinal =>
    rw [Engine.after, Engine.finish_cleared_eq_reset ⟨hKW, hRK, hctr, hCB, hKS, hn1, hn2⟩]
    exact engineInv_reset
  | kExpand key => exact ⟨hfill, hN, ⟨rfl, rfl, hctr, hCB, hKS, hn1, hn2⟩, hhash⟩
  | bEnc block subkeys => exact ⟨hfill, hN, ⟨hKW, rfl, hctr, hCB, hKS, rfl, rfl⟩, hhash⟩
  | ctrProc data key c => exact ⟨hfill, hN, ⟨rfl, rfl, rfl, rfl, rfl, rfl, rfl⟩, hhash⟩
  | keyHex text => exact hinv
  | ctrHex text => exact hinv
  | digHex d => exact hinv

theorem engineInv_exec {i : Instr} {s t : State} (hinv : EngineInv s.eng) (h : exec i s = .next t) :
    EngineInv t.eng := by
  obtain heng | heng := exec_eng h
  · rw [heng]
    exact engineInv_after hinv i
  · rwa [heng]

/-- An operation replaces the addressed engine among all the engines. -/
theorem exec_engines {i : Instr} {s t : State} (h : exec i s = .next t) : t.engines = s.engines.set s.number t.eng := by
  obtain ⟨e, r, rfl⟩ := exec_next_shape h
  exact s.engines_set e

theorem eng_mem_engines (s : State) : s.eng ∈ s.engines := List.mem_of_getElem? s.engines_number

theorem stateInv_exec {i : Instr} {s t : State} (hinv : StateInv s) (h : exec i s = .next t) : StateInv t := by
  intro e he
  rw [exec_engines h] at he
  obtain hold | rfl := List.mem_or_eq_of_mem_set he
  · exact hinv e hold
  · exact engineInv_exec (hinv s.eng (eng_mem_engines s)) h

/-- Settles O36: a step runs one operation on an engine that meets the invariant, and the other engines stay. -/
theorem stepKeepsInvariant : Obligations.StepKeepsInvariant := by
  intro s t hinv h
  obtain ⟨-, rfl⟩ | ⟨i, s', hf, he⟩ := step_cases h
  · exact ⟨hinv, rfl, rfl⟩
  · obtain ⟨c, rest, a, -, ha, -, rfl⟩ := fetch_eq_command hf
    obtain ⟨-, -, hengines, -, -, hml, -, -⟩ := State.address_eq_some ha
    have hsame : ({ a with cmds := rest } : State).engines = s.engines := hengines
    have hinv' : StateInv { a with cmds := rest } := by
      unfold StateInv
      rwa [hsame]
    refine ⟨stateInv_exec hinv' he, ?_, ?_⟩
    · rw [exec_engines he, List.length_set, hsame]
    · obtain ⟨e, r, rfl⟩ := exec_next_shape he
      exact hml

/-- Settles O35: every engine of the reset state is `Engine.reset`. -/
theorem resetMeetsInvariant : Obligations.ResetMeetsInvariant := by
  intro ml others e he
  obtain rfl : e = Engine.reset := by
    obtain rfl | he := List.mem_cons.mp he
    · rfl
    · exact List.eq_of_mem_replicate he
  exact engineInv_reset

/-- Settles O34: the fields of the reset state and of its one engine. -/
theorem resetState : Obligations.ResetState :=
  ⟨rfl, rfl, ⟨rfl, rfl, rfl, rfl, rfl, rfl, rfl⟩, ⟨rfl, rfl, rfl, rfl⟩, rfl, rfl, rfl, rfl⟩

end Sys2Proof.Machine
end

section
/-! PROOFS. One step: which operation it runs, when it is refused, and that it is answered once (00_scope.md section 5;
30_encoding.md sections 3 and 5). -/

namespace Sys2Proof.Machine

/-- A step on a command that decodes, for an engine that exists, is the operation with that engine addressed. -/
theorem step_eq_exec {s : State} {c : Command} {rest : List Command} {i : Instr} (hc : s.cmds = c :: rest)
    (ht : c.target < s.engines.length) (hi : decode s.maxLen c.frame = .ok i) :
    ∃ a, s.address c.target = some a ∧ step s = exec i { a with cmds := rest } := by
  obtain ⟨a, ha⟩ := State.address_isSome ht
  refine ⟨a, ha, ?_⟩
  unfold step
  rw [fetch_of_command hc ha hi]

/-- Settles O38: the machine that the operation runs on is the one that `State.address` gives. -/
theorem stepRunsDecodedCommand : Obligations.StepRunsDecodedCommand := by
  intro s c rest i hc ht hi
  obtain ⟨a, ha, hstep⟩ := step_eq_exec hc ht hi
  obtain ⟨hnum, hget, hengines, -, -, hml, -, hresps⟩ := State.address_eq_some ha
  exact ⟨{ a with cmds := rest }, hengines, hnum, hget, hml, rfl, hresps, hstep⟩

/-- Settles O39: every operation answers with one response of the addressed engine. -/
theorem everyDecodedCommandIsAnsweredOnce : Obligations.EveryDecodedCommandIsAnsweredOnce := by
  intro s c rest i hc ht hi
  obtain ⟨a, -, hnum, -, -, hcmds, hresps, hstep⟩ := stepRunsDecodedCommand s c rest i hc ht hi
  obtain ⟨e, r, hexec⟩ := exec_answers i a
  exact ⟨_, r, hstep.trans hexec, hcmds, by rw [← hresps, ← hnum]⟩

theorem fetch_of_undecodable {s : State} {c : Command} {rest : List Command} {why : DecodeError}
    (hc : s.cmds = c :: rest) (ht : c.target < s.engines.length) (hd : decode s.maxLen c.frame = .error why) :
    fetch s = .refusal (.undecodable why) := by
  obtain ⟨a, ha⟩ := State.address_isSome ht
  unfold fetch
  rw [hc]
  simp only [ha, hd]

/-- Settles O40: the frame is decoded before an operation runs. -/
theorem undecodableFrameIsRefused : Obligations.UndecodableFrameIsRefused := by
  intro s c rest why hc ht hd
  unfold step
  rw [fetch_of_undecodable hc ht hd]

/-- Settles O41: with no command waiting there is none to fetch. -/
theorem noCommandNoChange : Obligations.NoCommandNoChange := by
  intro s hc
  have hidle : fetch s = .idle := by
    unfold fetch
    rw [hc]
  unfold step
  rw [hidle]

end Sys2Proof.Machine
end

section
/-! PROOFS. Engines do not interfere: what a run does to one engine is a fold over the frames sent to it (20_memory.md
section 5). -/

namespace Sys2Proof

open Sys2Proof.Machine

/-- What engine `k` is and has answered. -/
def viewOf (k : Nat) (s : State) : Option Engine × List Response := (s.engines[k]?, responsesOf k s.resps)

/-- What one frame does to the engine it is sent to: its operation runs on that engine by itself. -/
def serveFrame (maxLen : Option Nat) (v : Option Engine × List Response) (frame : Bytes) :
    Option Engine × List Response :=
  match v.1, decode maxLen frame with
  | some e, .ok i =>
    match exec i { State.reset with eng := e } with
    | .next t => (some t.eng, v.2 ++ responsesOf 0 t.resps)
    | _ => v
  | _, _ => v

theorem framesTo_cons_of_eq {k : Nat} {c : Command} (h : c.target = k) (cs : List Command) :
    framesTo k (c :: cs) = c.frame :: framesTo k cs := by
  simp [framesTo, h]

theorem framesTo_cons_of_ne {k : Nat} {c : Command} (h : c.target ≠ k) (cs : List Command) :
    framesTo k (c :: cs) = framesTo k cs := by
  simp [framesTo, h]

theorem responsesOf_append_of_eq (k : Nat) (rs : List Reply) (r : Response) :
    responsesOf k (rs ++ [⟨k, r⟩]) = responsesOf k rs ++ [r] := by
  simp [responsesOf]

theorem responsesOf_append_of_ne {k j : Nat} (h : j ≠ k) (rs : List Reply) (r : Response) :
    responsesOf k (rs ++ [⟨j, r⟩]) = responsesOf k rs := by
  simp [responsesOf, h]

/-- A step shows engine `k` the frame that it takes, if that frame was sent to `k`, and nothing otherwise. -/
theorem viewOf_step {s t : State} {c : Command} {rest : List Command} (k : Nat) (hc : s.cmds = c :: rest)
    (h : step s = .next t) :
    viewOf k t = (framesTo k [c]).foldl (serveFrame s.maxLen) (viewOf k s) := by
  obtain ⟨i, e, e', r, hi, he, hengines, -, -, hresps, hexec⟩ := step_command hc h
  unfold viewOf
  rw [hengines, hresps]
  by_cases hk : c.target = k
  · subst hk
    have halone := hexec { State.reset with eng := e } rfl
    have hlen : c.target < s.engines.length := List.getElem?_eq_some_iff.mp he |>.1
    rw [framesTo_cons_of_eq rfl, List.foldl_cons, serveFrame, he, hi]
    simp only [halone, responsesOf_append_of_eq, List.getElem?_set_self hlen]
    rfl
  · rw [framesTo_cons_of_ne hk, List.getElem?_set_ne hk, responsesOf_append_of_ne hk]
    rfl

/-- A run of at least one step that answers: its first step answers. -/
theorem runSteps_succ_eq_next {n : Nat} {s t : State} (h : runSteps (n + 1) s = .next t) :
    ∃ u, step s = .next u ∧ runSteps n u = .next t := by
  rw [runSteps] at h
  split at h
  · next u hu => exact ⟨u, hu, h⟩
  · cases h
  · cases h

/-- A run of all commands shows engine `k` the frames sent to it, in order. -/
theorem viewOf_runSteps {s t : State} (k : Nat) (h : runSteps s.cmds.length s = .next t) :
    viewOf k t = (framesTo k s.cmds).foldl (serveFrame s.maxLen) (viewOf k s) := by
  generalize hc : s.cmds = cs at h ⊢
  induction cs generalizing s with
  | nil =>
    cases h
    rfl
  | cons c rest ih =>
    obtain ⟨u, hu, hrun⟩ := runSteps_succ_eq_next h
    obtain ⟨_, _, _, _, -, -, -, hml, hcmds, -, -⟩ := step_command hc hu
    have hsplit : framesTo k (c :: rest) = framesTo k [c] ++ framesTo k rest := by
      simp only [framesTo, ← List.map_append, ← List.filter_append, List.singleton_append]
    rw [ih hcmds hrun, viewOf_step k hc hu, hml, hsplit, List.foldl_append]

/-- Settles O42: the fold of `viewOf_runSteps` depends on MAXLEN, the view of engine `k` and its frames only. -/
theorem enginesDoNotInterfere : Obligations.EnginesDoNotInterfere := by
  intro k s s' t t' hml heng hframes hresps ht ht'
  have hview : viewOf k t = viewOf k t' := by
    rw [viewOf_runSteps k ht, viewOf_runSteps k ht', hml, hframes, viewOf, heng, hresps, viewOf]
  exact Prod.mk.inj hview

end Sys2Proof
end

section
/-! PROOFS. The linear map as matrix rows, and the keyed transform as key mixes and transforms (40_hash_tables.md
section 2; 41_hash_compression.md sections 1 and 2). -/

namespace Sys2Proof.Machine

namespace Hash

/-! ### The rows of the matrix -/

/-- Bit `63 - j` of the word with only bit `63 - i` set. -/
theorem getLsbD_twoPow_place {i j : Nat} (hi : i < 64) (hj : j < 64) :
    (BitVec.twoPow 64 (63 - i)).getLsbD (63 - j) = decide (i = j) := by
  have hbit : 63 - j = 63 - i ↔ i = j := by omega
  have hwidth : 63 - j < 64 := by omega
  simp [hbit, hwidth]

/-- The word with only bit `63 - i` set picks row `i`, if that is one of the rows, which are numbered from `j`. -/
theorem rowSum_twoPow {i j : Nat} (rows : List W64) (hi : i < 64) (hlen : j + rows.length ≤ 64) :
    rowSum (BitVec.twoPow 64 (63 - i)) j rows = if j ≤ i then rows.getD (i - j) 0 else 0 := by
  induction rows generalizing j with
  | nil => simp [rowSum]
  | cons row rows ih =>
    rw [List.length_cons] at hlen
    rw [rowSum, getLsbD_twoPow_place hi (by omega), ih (by omega)]
    obtain hbefore | rfl | hafter : i < j ∨ i = j ∨ j < i := by omega
    · have hnone : i ≠ j ∧ ¬ j + 1 ≤ i ∧ ¬ j ≤ i := by omega
      simp [hnone]
    · simp
    · obtain ⟨d, rfl⟩ : ∃ d, i = j + 1 + d := ⟨i - (j + 1), by omega⟩
      have hlater : j + 1 + d ≠ j ∧ j + 1 + d - j = d + 1 ∧ j ≤ j + 1 + d := by omega
      simp [hlater]

theorem l64_twoPow {i : Nat} (hi : i < 64) : l64 (BitVec.twoPow 64 (63 - i)) = A.getD i 0 :=
  (rowSum_twoPow A hi (by decide)).trans (if_pos (Nat.zero_le i))

/-! ### The keyed transform -/

theorem X_comm (a b : V512) : X a b = X b a := BitVec.xor_comm a b

/-- The running key before round `i` (41_hash_compression.md rule R90). -/
def runningKey (K : V512) : Nat → V512
  | 0 => K
  | i + 1 => LPS (X (runningKey K i) (C.getD i 0))

/-- The cipher state after `n` transforms, before its next key mix (41_hash_compression.md rule R90). -/
def mixed (K : V512) (n : Nat) (m : V512) : V512 := (List.range n).foldl (fun v i => LPS (X (runningKey K i) v)) m

theorem mixed_succ (K : V512) (n : Nat) (m : V512) :
    mixed K (n + 1) m = LPS (X (runningKey K n) (mixed K n m)) := by
  simp [mixed, List.range_succ]

/-- The loop of the keyed transform after `n` rounds. -/
theorem foldl_keyRound (K m : V512) {n : Nat} (hn : n ≤ C.length) :
    (C.take n).foldl keyRound (K, LPS (X K m)) = (runningKey K n, mixed K (n + 1) m) := by
  induction n with
  | zero => rfl
  | succ n ih =>
    rw [List.take_succ_eq_append_getElem hn, List.foldl_append, ih (by omega), ← List.getD_eq_getElem C 0 hn,
      mixed_succ K (n + 1), X_comm (runningKey K (n + 1))]
    rfl

theorem E_eq (K m : V512) : E K m = X (runningKey K 12) (mixed K 12 m) := by
  have hloop : (C.take 11).foldl keyRound (K, LPS (X K m)) = (runningKey K 11, mixed K 12 m) :=
    foldl_keyRound K m (by decide)
  rw [E, keyedRun, hloop, X_comm (runningKey K 12)]
  rfl

theorem X_injective (a : V512) : Function.Injective (X a) := fun _ _ h => BitVec.xor_right_inj a |>.mp h

theorem mixed_injective (K : V512) (n : Nat) : Function.Injective (mixed K n) := by
  induction n with
  | zero => exact fun _ _ h => h
  | succ n ih =>
    intro m m' h
    rw [mixed_succ, mixed_succ] at h
    exact ih (X_injective _ (LPS_injective h))

theorem E_injective (K : V512) : Function.Injective (E K) := fun m m' h => by
  rw [E_eq, E_eq] at h
  exact mixed_injective K 12 (X_injective _ h)

end Hash

/-- Settles O4: a unit word picks one row, and `l64` is linear and injective. -/
theorem laneMapXorsMatrixRows : Obligations.LaneMapXorsMatrixRows :=
  ⟨fun _ hi => Hash.l64_twoPow hi, Hash.l64_zero, Hash.l64_xor, bijective_of_injective Hash.l64_injective, by decide⟩

/-- Settles O9: the keys are `Hash.runningKey`, and each mix and each transform is injective. -/
theorem keyedTransformMixesThirteenKeys : Obligations.KeyedTransformMixesThirteenKeys :=
  ⟨fun K => ⟨Hash.runningKey K, rfl, fun _ _ => rfl, Hash.E_eq K⟩,
    fun K => bijective_of_injective (Hash.E_injective K), fun _ _ _ => rfl⟩

end Sys2Proof.Machine
end

section
/-! PROOFS. A message absorbed in any chunks, and its digest (42_hash_engine.md section 5; 70_reset_and_hazards.md
section 4). -/

namespace Sys2Proof.Machine

/-- Settles O13: absorbing a concatenation is absorbing its parts in order. -/
theorem streamingInvariance : Obligations.StreamingInvariance := by
  intro a b s
  exact ⟨_, _, _, exec_hUpdate a s, exec_hUpdate b _, exec_hUpdate (a ++ b) s, (s.eng.absorb_append a b).symm⟩

theorem contextOf_eq_iff {e : Engine} {h N Sigma : V512} {pend : Bytes} :
    contextOf e = (h, N, Sigma, pend) ↔ e.h = h ∧ e.N = N ∧ e.Sigma = Sigma ∧ e.pend = pend := by
  simp [contextOf]

/-- The context after the first `b` whole blocks of a message (42_hash_engine.md rule R104). -/
theorem contextOf_absorb_blocks {e : Engine} (he : contextOf e = initialContext) (M : Bytes) {b : Nat}
    (hb : 64 * b ≤ M.length) :
    contextOf (e.absorb (M.take (64 * b))) =
      ((Hash.afterBlocks M b).1, BitVec.ofNat 512 (512 * b), (Hash.afterBlocks M b).2, []) := by
  induction b with
  | zero => exact he
  | succ b ih =>
    obtain ⟨hh, hN, hSigma, hpend⟩ := contextOf_eq_iff.mp (ih (by omega))
    have hlen : ((M.drop (64 * b)).take 64).length = 64 := by
      rw [List.length_take, List.length_drop]
      omega
    have hne : (M.drop (64 * b)).take 64 ≠ [] := by
      intro h
      rw [h] at hlen
      cases hlen
    have hcount : Hash.ADD512I (BitVec.ofNat 512 (512 * b)) 512 = BitVec.ofNat 512 (512 * (b + 1)) := by
      rw [Hash.ADD512I, ← BitVec.ofNat_add, Nat.mul_add]
    rw [Nat.mul_add, List.take_add, Engine.absorb_append, Engine.absorb_of_eq _ _ hne (by rw [hpend, hlen]; rfl)]
    simp only [contextOf, Engine.absorbBlock_h, Engine.absorbBlock_N, Engine.absorbBlock_Sigma, Engine.absorbBlock_pend,
      Engine.window, hh, hN, hSigma, hpend, List.nil_append, hcount]
    rfl

/-- The context after a whole message (42_hash_engine.md rule R104). -/
theorem contextOf_absorb_message {e : Engine} (he : contextOf e = initialContext) (M : Bytes) :
    contextOf (e.absorb M) =
      ((Hash.afterBlocks M (M.length / 64)).1, BitVec.ofNat 512 (512 * (M.length / 64)),
        (Hash.afterBlocks M (M.length / 64)).2, M.drop (64 * (M.length / 64))) := by
  obtain ⟨hh, hN, hSigma, hpend⟩ :=
    contextOf_eq_iff.mp (contextOf_absorb_blocks he M (b := M.length / 64) (by omega))
  have hsplit : e.absorb M = (e.absorb (M.take (64 * (M.length / 64)))).absorb (M.drop (64 * (M.length / 64))) := by
    rw [← Engine.absorb_append, List.take_append_drop]
  have hrest : (M.drop (64 * (M.length / 64))).length < 64 := by
    rw [List.length_drop]
    omega
  rw [hsplit, Engine.absorb_of_lt _ _ (by rw [hpend]; simpa using hrest)]
  simp only [contextOf, hh, hN, hSigma, hpend, List.nil_append]

/-- The digest that `H_FINAL` returns is that of the bytes absorbed since the context was initial. -/
theorem digest_absorb {e : Engine} (he : contextOf e = initialContext) (M : Bytes) :
    (bytes512 (e.absorb M).finish.h).reverse = Hash.DIGEST M := by
  obtain ⟨hh, hN, hSigma, hpend⟩ := contextOf_eq_iff.mp (contextOf_absorb_message he M)
  have hlen : (M.drop (64 * (M.length / 64))).length = M.length % 64 := by
    rw [List.length_drop]
    omega
  rw [Engine.finish_eq, Hash.DIGEST]
  simp only [hh, hN, hSigma, hpend, hlen, Hash.ADD512I, ← BitVec.ofNat_add]

theorem append_replicate_succ (rs : List Reply) (n : Nat) (r : Reply) :
    rs ++ List.replicate (n + 1) r = rs ++ [r] ++ List.replicate n r := by
  rw [List.replicate_succ, List.append_cons]

/-- One `H_UPDATE` per chunk and `H_FINAL`, from any state. -/
theorem runInstrs_updates_final (chunks : List Bytes) (s : State) :
    ∃ t : State, runInstrs (chunks.map .hUpdate ++ [.hFinal]) s = .next t ∧
      t.resps = s.resps ++ List.replicate chunks.length ⟨s.number, .ok []⟩ ++
        [⟨s.number, .ok (bytes512 (s.eng.absorb chunks.flatten).finish.h).reverse⟩] ∧
      contextOf t.eng = initialContext := by
  induction chunks generalizing s with
  | nil =>
    refine ⟨_, runInstrs_cons (exec_hFinal s) [], ?_, rfl⟩
    rw [List.flatten_nil, Engine.absorb_nil, List.length_nil, List.replicate_zero, List.append_nil]
    rfl
  | cons chunk chunks ih =>
    obtain ⟨t, ht, hresps, hctx⟩ := ih { s with eng := s.eng.absorb chunk, resps := s.resps ++ [⟨s.number, .ok []⟩] }
    refine ⟨t, (runInstrs_cons (exec_hUpdate chunk s) _).trans ht, ?_, hctx⟩
    rw [hresps, List.flatten_cons, Engine.absorb_append, List.length_cons, append_replicate_succ]
    rfl

/-- Settles O15: `H_INIT` makes the context initial, and the chunks absorbed in order are their concatenation
absorbed. -/
theorem digestIsFunctionOfMessage : Obligations.DigestIsFunctionOfMessage := by
  intro chunks s
  obtain ⟨t, ht, hresps, hctx⟩ := runInstrs_updates_final chunks
    { s with eng := s.eng.clearContext, resps := s.resps ++ [⟨s.number, .ok []⟩] }
  refine ⟨t, (runInstrs_cons (exec_hInit s) _).trans ht, ?_, hctx⟩
  rw [hresps, digest_absorb (contextOf_clearContext s.eng), append_replicate_succ]
  rfl

/-- Settles O16: `H_FINAL` leaves an initial context, from which the empty message has been absorbed. -/
theorem digestIsReturnedOnce : Obligations.DigestIsReturnedOnce := by
  intro s
  have hctx : contextOf s.eng.finish.clearContext.clearPadded = initialContext := rfl
  have hscratch : HashScratchZero s.eng.finish.clearContext.clearPadded := by
    rw [Engine.finish_cleared]
    exact ⟨rfl, rfl, rfl, rfl⟩
  refine ⟨_, _, exec_hFinal s, hctx, hscratch, exec_hFinal _, ?_⟩
  rw [← digest_absorb hctx []]
  rfl

end Sys2Proof.Machine
end

section
/-! PROOFS. The rounds under the reversed subkeys undo the rounds (43_cipher_block.md section 4). -/

namespace Sys2Proof.Machine

namespace Cipher

/-- The last round is a round whose halves are swapped back. -/
theorem lastRound_eq_swap (p : W32 × W32) (k : W32) : lastRound p k = (round p k).swap := rfl

/-- With 32 subkeys the core is 32 equal rounds and one swap. -/
theorem rounds_eq_swap_foldl {rk : List W32} (h : rk.length = 32) (p : W32 × W32) :
    rounds rk p = (rk.foldl round p).swap := by
  have hsplit : rk = rk.take 31 ++ [rk.getD 31 0] := by
    have hlast : rk.take 32 = rk.take 31 ++ [rk[31]] := List.take_succ_eq_append_getElem (by omega)
    rwa [List.take_of_length_le (by omega), ← List.getD_eq_getElem rk 0] at hlast
  rw [rounds, lastRound_eq_swap]
  conv_rhs => rw [hsplit, List.foldl_append]
  rfl

/-- A round on the swapped halves after the same round gives the halves before it, swapped: the exclusive-or with
the same round value cancels. -/
theorem round_swap_round (p : W32 × W32) (k : W32) : round (round p k).swap k = p.swap := by
  simp only [round, Prod.swap, BitVec.xor_assoc, BitVec.xor_self, BitVec.xor_zero]

/-- Any rounds, undone by the same subkeys in reverse order. -/
theorem foldl_round_reverse (rk : List W32) (p : W32 × W32) :
    rk.reverse.foldl round (rk.foldl round p).swap = p.swap := by
  induction rk generalizing p with
  | nil => rfl
  | cons k rk ih =>
    rw [List.reverse_cons, List.foldl_append, List.foldl_cons, List.foldl_nil, List.foldl_cons, ih, round_swap_round]

theorem rounds_reverse {rk : List W32} (h : rk.length = 32) (p : W32 × W32) : rounds rk.reverse (rounds rk p) = p := by
  rw [rounds_eq_swap_foldl h, rounds_eq_swap_foldl (by simpa using h), foldl_round_reverse, Prod.swap_swap]

theorem encryptBlock_reverse {rk : List W32} (h : rk.length = 32) (block : W64) :
    encryptBlock rk.reverse (encryptBlock rk block) = block := by
  simp only [encryptBlock, firstHalf_joinHalves, secondHalf_joinHalves, Prod.mk.eta, rounds_reverse h,
    joinHalves_halves]

end Cipher

/-- Settles O22: a round undoes itself on swapped halves, so 32 of them in reverse order undo the 32 rounds. -/
theorem reversedSubkeysDecrypt : Obligations.ReversedSubkeysDecrypt := by
  refine ⟨fun rk block s h => ?_, fun rk h =>
    bijective_of_injective (Function.LeftInverse.injective (Cipher.encryptBlock_reverse h))⟩
  refine ⟨Cipher.encryptBlock rk block, _, _, exec_bEnc h block s, rfl, exec_bEnc (by simpa using h) _ _, ?_⟩
  rw [Cipher.encryptBlock_reverse h]
  rfl

end Sys2Proof.Machine
end

section
/-! PROOFS. `CTR_PROC`: leading parts of the data, and data in two parts (44_counter_mode.md sections 1 and 2). -/

namespace Sys2Proof.Machine

namespace Cipher

/-- A keystream byte depends on its place only, so leading parts of the data give leading parts of the output. -/
theorem xorKeystream_take (key : Bytes) (c : W64) (data : Bytes) (n : Nat) :
    xorKeystream key c (data.take n) = (xorKeystream key c data).take n := by
  apply List.ext_getElem (by simp)
  intro p hp _
  have hlen : p < (data.take n).length := by simpa using hp
  have hdata : p < data.length := Nat.lt_of_lt_of_le hlen (List.length_take_le' n data)
  rw [getElem_xorKeystream key c _ hlen, List.getElem_take, List.getElem_take, getElem_xorKeystream key c data hdata]

/-- The keystream after `n` whole blocks is the keystream of the counter advanced by `n`, modulo 2^64. -/
theorem keystreamByte_add (key : Bytes) (c : W64) (n p : Nat) :
    keystreamByte key c (8 * n + p) = keystreamByte key (c + BitVec.ofNat 64 n) p := by
  have hblock : (8 * n + p) / 8 = n + p / 8 := by omega
  have hbyte : (8 * n + p) % 8 = p % 8 := by omega
  simp only [keystreamByte, keystreamBlock, hblock, hbyte, BitVec.ofNat_add, BitVec.add_assoc]

theorem xorKeystream_append {a : Bytes} (ha : a.length % 8 = 0) (key : Bytes) (c : W64) (b : Bytes) :
    xorKeystream key c (a ++ b) =
      xorKeystream key c a ++ xorKeystream key (c + BitVec.ofNat 64 (a.length / 8)) b := by
  apply List.ext_getElem (by simp)
  intro p hp _
  have hlen : p < (a ++ b).length := by simpa using hp
  rw [getElem_xorKeystream key c _ hlen, List.getElem_append, List.getElem_append]
  by_cases hpa : p < a.length
  · simp only [length_xorKeystream, hpa, dite_true, getElem_xorKeystream key c a hpa]
  · have hpb : p - a.length < b.length := by
      rw [List.length_append] at hlen
      omega
    have hplace : p = 8 * (a.length / 8) + (p - a.length) := by omega
    have hkey : keystreamByte key c p = keystreamByte key (c + BitVec.ofNat 64 (a.length / 8)) (p - a.length) := by
      rw [← keystreamByte_add, ← hplace]
    simp only [length_xorKeystream, hpa, dite_false, hkey, getElem_xorKeystream key _ b hpb]

end Cipher

/-- Settles O23: the output is `Cipher.xorKeystream`, and that of a leading part is a leading part of it. -/
theorem ctrProcXorsKeystream : Obligations.CtrProcXorsKeystream := by
  intro data key c s hk
  refine ⟨Cipher.xorKeystream key c data, Cipher.length_xorKeystream key c data, fun p hp => ?_, fun n => ?_⟩
  · rw [List.getD_eq_getElem _ 0 (by simpa using hp), List.getD_eq_getElem _ 0 hp,
      Cipher.getElem_xorKeystream key c data hp]
    rfl
  · rw [exec_ctrProc_xorKeystream hk, Cipher.xorKeystream_take]
    rfl

/-- Settles O25: the keystream of the second part starts at a block, so it is that of the advanced counter. -/
theorem ctrProcContinuesAtBlockBoundary : Obligations.CtrProcContinuesAtBlockBoundary := by
  intro a b key c s hk ha
  refine ⟨Cipher.xorKeystream key c a, Cipher.xorKeystream key (c + BitVec.ofNat 64 (a.length / 8)) b, _, _, _,
    exec_ctrProc_xorKeystream hk a c s, rfl, exec_ctrProc_xorKeystream hk b _ s, rfl,
    exec_ctrProc_xorKeystream hk (a ++ b) c s, ?_⟩
  rw [Cipher.xorKeystream_append ha]
  rfl

/-- Settles O26: both operations check the key's length first. -/
theorem wrongKeyLengthIsReported : Obligations.WrongKeyLengthIsReported := by
  intro data key c s hk
  exact ⟨exec_kExpand_error hk s, exec_ctrProc_error hk data c s⟩

end Sys2Proof.Machine
end

section
/-! PROOFS. The hex digits of a text, and the key that 64 of them write (45_operand_format.md sections 2 and 3). -/

namespace Sys2Proof.Machine

theorem hexVal_decimal : ∀ d < 10, hexVal (BitVec.ofNat 8 (0x30 + d)) = some (BitVec.ofNat 4 d) := by decide

theorem hexVal_letter : ∀ d < 6, hexVal (BitVec.ofNat 8 (0x41 + d)) = some (BitVec.ofNat 4 (10 + d)) ∧
    hexVal (BitVec.ofNat 8 (0x61 + d)) = some (BitVec.ofNat 4 (10 + d)) := by decide

/-- A byte is no digit exactly when it lies in none of the three ranges. -/
theorem hexVal_eq_none_iff (c : Byte) : hexVal c = none ↔
    ¬ ((0x30 ≤ c.toNat ∧ c.toNat ≤ 0x39) ∨ (0x41 ≤ c.toNat ∧ c.toNat ≤ 0x46) ∨ (0x61 ≤ c.toNat ∧ c.toNat ≤ 0x66)) := by
  unfold hexVal
  split
  · next h => simp [h]
  · next h09 =>
    split
    · next h => simp [h]
    · next hAF =>
      split
      · next h => simp [h]
      · next haf => simp [h09, hAF, haf]

/-- Settles O27: the three ranges of `hexVal`, and stripping as a filter. -/
theorem hexDigitsAreTwentyTwoCodes : Obligations.HexDigitsAreTwentyTwoCodes :=
  ⟨hexVal_decimal, hexVal_letter, hexVal_eq_none_iff, rfl, fun _ _ _ h => List.filterMap_cons_some h,
    fun _ _ h => List.filterMap_cons_none h⟩

/-- Byte `j` of paired digits is 16 times digit `2j` plus digit `2j + 1`. -/
theorem toNat_getD_pairDigits : ∀ {ds : List (BitVec 4)} {j : Nat}, 2 * j + 1 < ds.length →
    ((pairDigits ds).getD j 0).toNat = 16 * (ds.getD (2 * j) 0).toNat + (ds.getD (2 * j + 1) 0).toNat
  | [], _, h => by simp at h
  | [_], _, h => by simp at h
  | a :: b :: rest, 0, _ => by
    have hbyte : 16 * a.toNat + b.toNat < 2 ^ 8 := by have := a.isLt; have := b.isLt; omega
    exact Nat.mod_eq_of_lt hbyte
  | a :: b :: rest, j + 1, h =>
    toNat_getD_pairDigits (ds := rest) (j := j) (by simp only [List.length_cons] at h; omega)

/-- Settles O28: 64 digits make 32 bytes, which is the key length that `K_EXPAND` asks for. -/
theorem keyHexParsesSixtyFourDigits : Obligations.KeyHexParsesSixtyFourDigits := by
  intro text s
  refine ⟨fun h => ?_, fun h => exec_keyHex_error h s⟩
  have hkey : (pairDigits (stripHex text)).length = 32 := by rw [length_pairDigits, h]
  exact ⟨pairDigits (stripHex text), hkey, fun j hj => toNat_getD_pairDigits (by omega), exec_keyHex h s, _, _,
    exec_kExpand hkey s, rfl⟩

end Sys2Proof.Machine
end

section
/-! PROOFS. Which errors an operation answers, and the frame of a response (60_exceptions.md section 1; 30_encoding.md
section 3). -/

namespace Sys2Proof.Machine

/-- An operation that completes answers an error on no condition. -/
theorem Response.ok_eq_err_iff {P : Prop} (hP : ¬ P) (result : Bytes) (k e : ErrorKind) :
    Response.ok result = .err e ↔ P ∧ e = k := by simp [hP]

/-- An operation that raises answers its error, on the condition that holds. -/
theorem Response.err_eq_err_iff {P : Prop} (hP : P) (k e : ErrorKind) : Response.err k = .err e ↔ P ∧ e = k := by
  simp [hP, eq_comm]

theorem Response.ok_eq_err_iff_false (result : Bytes) (e : ErrorKind) : Response.ok result = .err e ↔ False := by simp

/-- Settles O32: each operation that checks an operand completes where the check holds, and raises its error where
not. -/
theorem errorsAreRaisedExactlyWhen : Obligations.ErrorsAreRaisedExactlyWhen := by
  refine ⟨⟨rfl, rfl, rfl, rfl⟩, fun i s => ?_⟩
  cases i with
  | hInit => exact ⟨_, _, exec_hInit s, rfl, Response.ok_eq_err_iff_false _⟩
  | hUpdate data => exact ⟨_, _, exec_hUpdate data s, rfl, Response.ok_eq_err_iff_false _⟩
  | hFinal => exact ⟨_, _, exec_hFinal s, rfl, Response.ok_eq_err_iff_false _⟩
  | kExpand key =>
    by_cases hk : key.length = 32
    · exact ⟨_, _, exec_kExpand hk s, rfl, Response.ok_eq_err_iff (not_not.mpr hk) _ _⟩
    · exact ⟨_, _, exec_kExpand_error hk s, rfl, Response.err_eq_err_iff hk _⟩
  | bEnc block subkeys =>
    by_cases hk : subkeys.length = 32
    · exact ⟨_, _, exec_bEnc hk block s, rfl, Response.ok_eq_err_iff (not_not.mpr hk) _ _⟩
    · exact ⟨_, _, exec_bEnc_error hk block s, rfl, Response.err_eq_err_iff hk _⟩
  | ctrProc data key c =>
    by_cases hk : key.length = 32
    · exact ⟨_, _, exec_ctrProc hk data c s, rfl, Response.ok_eq_err_iff (not_not.mpr hk) _ _⟩
    · exact ⟨_, _, exec_ctrProc_error hk data c s, rfl, Response.err_eq_err_iff hk _⟩
  | keyHex text =>
    by_cases hk : (stripHex text).length = 64
    · exact ⟨_, _, exec_keyHex hk s, rfl, Response.ok_eq_err_iff (not_not.mpr hk) _ _⟩
    · exact ⟨_, _, exec_keyHex_error hk s, rfl, Response.err_eq_err_iff hk _⟩
  | ctrHex text =>
    by_cases hk : 0 < (stripHex text).length ∧ (stripHex text).length ≤ 16
    · exact ⟨_, _, exec_ctrHex hk.1 hk.2 s, rfl, Response.ok_eq_err_iff (by omega) _ _⟩
    · exact ⟨_, _, exec_ctrHex_error hk s, rfl, Response.err_eq_err_iff (by omega) _⟩
  | digHex d => exact ⟨_, _, exec_digHex d s, rfl, Response.ok_eq_err_iff_false _⟩

/-! ### The response frame -/

theorem Response.frame_ok (result : Bytes) :
    (Response.ok result).frame = 0x00 :: (unpack 8 8 result.length ++ result) := rfl

theorem Response.length_frame_ok (result : Bytes) : (Response.ok result).frame.length = 9 + result.length := by
  rw [Response.frame_ok, List.length_cons, List.length_append, length_unpack]
  omega

theorem ErrorKind.code_ne_zero (k : ErrorKind) : k.code ≠ 0x00 := by cases k <;> decide

/-- The error whose status code is a given byte (60_exceptions.md rule R150). -/
def errorOfCode (b : Byte) : ErrorKind :=
  match b.toNat with
  | 1 => .invalidKeyLength
  | 2 => .invalidRoundKeyCount
  | 3 => .invalidHexKey
  | _ => .invalidCounterFormat

theorem errorOfCode_code (k : ErrorKind) : errorOfCode k.code = k := by cases k <;> rfl

theorem ErrorKind.code_injective : Function.Injective ErrorKind.code := Function.LeftInverse.injective errorOfCode_code

/-- The status byte tells an error from OK and the errors apart; the rest of an OK frame ends with the result. -/
theorem Response.frame_injective : Function.Injective Response.frame := by
  intro r r' h
  cases r with
  | ok result =>
    cases r' with
    | ok result' =>
      have hlen : (unpack 8 8 result.length).length = (unpack 8 8 result'.length).length := by
        rw [length_unpack, length_unpack]
      exact congrArg Response.ok (List.append_inj (List.cons.inj h).2 hlen).2
    | err k => exact absurd (List.cons.inj h).1.symm k.code_ne_zero
  | err k =>
    cases r' with
    | ok result => exact absurd (List.cons.inj h).1 k.code_ne_zero
    | err k' => exact congrArg Response.err (ErrorKind.code_injective (List.cons.inj h).1)

/-- Settles O33: the frames as they are written, and `Response.frame_injective`. -/
theorem responseFrameCarriesStatusAndResult : Obligations.ResponseFrameCarriesStatusAndResult :=
  ⟨fun result => ⟨Response.frame_ok result, Response.length_frame_ok result⟩, Response.frame_err _,
    Response.frame_err _, Response.frame_err _, Response.frame_err _, fun _ _ h => Response.frame_injective h⟩

end Sys2Proof.Machine
end
